-- ==== Sys2Proof/Word.lean ====
section
/-! DEFINITION. The word types of the CHIP-8 core: sizes of `00_scope.md` rule R5, fields of
`30_encoding.md` rule R51. All values are unsigned (`00_scope.md` rule R7). -/

namespace Sys2Proof

/-- `REG_W`, `TIMER_W`, one memory byte, and the constant `NN`: 8 bits. -/
abbrev Byte := BitVec 8

/-- `I_W`, `PC_W`, `STACK_W`, and the instruction word: 16 bits. -/
abbrev Word := BitVec 16

/-- A register number: the 4-bit fields `X` and `Y`; also the 4-bit constant `N` and a key number. -/
abbrev Nibble := BitVec 4

/-- The name of a general register, V0 to VF (`10_state.md` rule R10). -/
abbrev Reg := Nibble

/-- The 12-bit address field `NNN`. -/
abbrev Addr := BitVec 12

end Sys2Proof
end

