-- ==== Sys2Proof/Syntax.lean ====
section
/-! DEFINITION. The 34 instructions of `30_encoding.md` rule R54, one constructor per row of
`spec/opcode_table.json`, in the table's order. -/

namespace Sys2Proof

/-- An instruction with its decoded operands (fields of `30_encoding.md` rule R51). `SHR Vx` and
`SHL Vx` have the one operand X: their Y field is ignored (rule R56). -/
inductive Instr where
  /-- `CLS` (00E0) -/
  | cls
  /-- `RET` (00EE) -/
  | ret
  /-- `JP NNN` (1NNN) -/
  | jp (nnn : Addr)
  /-- `CALL NNN` (2NNN) -/
  | call (nnn : Addr)
  /-- `SE Vx,NN` (3XNN) -/
  | seImm (x : Reg) (nn : Byte)
  /-- `SNE Vx,NN` (4XNN) -/
  | sneImm (x : Reg) (nn : Byte)
  /-- `SE Vx,Vy` (5XY0) -/
  | seReg (x y : Reg)
  /-- `LD Vx,NN` (6XNN) -/
  | ldImm (x : Reg) (nn : Byte)
  /-- `ADD Vx,NN` (7XNN) -/
  | addImm (x : Reg) (nn : Byte)
  /-- `LD Vx,Vy` (8XY0) -/
  | ldReg (x y : Reg)
  /-- `OR Vx,Vy` (8XY1) -/
  | orReg (x y : Reg)
  /-- `AND Vx,Vy` (8XY2) -/
  | andReg (x y : Reg)
  /-- `XOR Vx,Vy` (8XY3) -/
  | xorReg (x y : Reg)
  /-- `ADD Vx,Vy` (8XY4) -/
  | addReg (x y : Reg)
  /-- `SUB Vx,Vy` (8XY5) -/
  | subReg (x y : Reg)
  /-- `SHR Vx` (8XY6, any Y) -/
  | shr (x : Reg)
  /-- `SUBN Vx,Vy` (8XY7) -/
  | subnReg (x y : Reg)
  /-- `SHL Vx` (8XYE, any Y) -/
  | shl (x : Reg)
  /-- `SNE Vx,Vy` (9XY0) -/
  | sneReg (x y : Reg)
  /-- `LD I,NNN` (ANNN) -/
  | ldI (nnn : Addr)
  /-- `JP V0,NNN` (BNNN) -/
  | jpV0 (nnn : Addr)
  /-- `RND Vx,NN` (CXNN) -/
  | rnd (x : Reg) (nn : Byte)
  /-- `DRW Vx,Vy,N` (DXYN) -/
  | drw (x y : Reg) (n : Nibble)
  /-- `SKP Vx` (EX9E) -/
  | skp (x : Reg)
  /-- `SKNP Vx` (EXA1) -/
  | sknp (x : Reg)
  /-- `LD Vx,DT` (FX07) -/
  | ldVxDt (x : Reg)
  /-- `LD Vx,K` (FX0A) -/
  | ldVxKey (x : Reg)
  /-- `LD DT,Vx` (FX15) -/
  | ldDtVx (x : Reg)
  /-- `LD ST,Vx` (FX18) -/
  | ldStVx (x : Reg)
  /-- `ADD I,Vx` (FX1E) -/
  | addI (x : Reg)
  /-- `LD F,Vx` (FX29) -/
  | ldFont (x : Reg)
  /-- `LD B,Vx` (FX33) -/
  | ldBcd (x : Reg)
  /-- `LD [I],Vx` (FX55) -/
  | storeRegs (x : Reg)
  /-- `LD Vx,[I]` (FX65) -/
  | loadRegs (x : Reg)
deriving DecidableEq, Repr

end Sys2Proof
end

