-- ==== Sys2Proof/WellFormed.lean ====
section
/-! DEFINITION. Operand formats and the check of operand values (`30_encoding.md` rules R52, R53,
R58): an instruction as a programmer writes it, a mnemonic with numbers, is well formed exactly when
it has the operands of its format and each number fits its field; "a number too wide for its field is
an error, never truncated". -/

namespace Sys2Proof

/-- The 34 operations without their operands. -/
inductive Op where
  | cls | ret | jp | call | seImm | sneImm | seReg | ldImm | addImm | ldReg | orReg | andReg | xorReg
  | addReg | subReg | shr | subnReg | shl | sneReg | ldI | jpV0 | rnd | drw | skp | sknp | ldVxDt | ldVxKey
  | ldDtVx | ldStVx | addI | ldFont | ldBcd | storeRegs | loadRegs
deriving DecidableEq, Repr

/-- The six operand shapes of rule R52, and the one-operand use of `XY` by the shifts (rule R56). -/
inductive Format where
  | e | a | xi | xy | xyIgnoringY | xyn | xs
deriving DecidableEq, Repr

/-- The format of each operation (rule R52's last column). -/
def Op.format : Op → Format
  | .cls | .ret => .e
  | .jp | .call | .ldI | .jpV0 => .a
  | .seImm | .sneImm | .ldImm | .addImm | .rnd => .xi
  | .seReg | .sneReg | .ldReg | .orReg | .andReg | .xorReg | .addReg | .subReg | .subnReg => .xy
  | .shr | .shl => .xyIgnoringY
  | .drw => .xyn
  | .skp | .sknp | .ldVxDt | .ldVxKey | .ldDtVx | .ldStVx | .addI | .ldFont | .ldBcd | .storeRegs
  | .loadRegs => .xs

/-- Field widths of a format's operands, in written order (rules R51, R52). -/
def Format.widths : Format → List Nat
  | .e => []
  | .a => [12]
  | .xi => [4, 8]
  | .xy => [4, 4]
  | .xyIgnoringY => [4]
  | .xyn => [4, 4, 4]
  | .xs => [4]

/-- An instruction as written: a mnemonic and numbers of any size (rule R58). -/
structure Source where
  op : Op
  operands : List Nat
deriving DecidableEq, Repr

/-- Each number fits the field at its place, and there is one number per field. -/
def fitsFields : List Nat → List Nat → Bool
  | [], [] => true
  | w :: ws, n :: ns => decide (n < 2 ^ w) && fitsFields ws ns
  | [], _ :: _ => false
  | _ :: _, [] => false

/-- The check of rules R53 and R58. -/
def Source.wellFormed (src : Source) : Bool := fitsFields src.op.format.widths src.operands

/-- The operation of an instruction. -/
def Instr.op : Instr → Op
  | .cls => .cls
  | .ret => .ret
  | .jp _ => .jp
  | .call _ => .call
  | .seImm _ _ => .seImm
  | .sneImm _ _ => .sneImm
  | .seReg _ _ => .seReg
  | .ldImm _ _ => .ldImm
  | .addImm _ _ => .addImm
  | .ldReg _ _ => .ldReg
  | .orReg _ _ => .orReg
  | .andReg _ _ => .andReg
  | .xorReg _ _ => .xorReg
  | .addReg _ _ => .addReg
  | .subReg _ _ => .subReg
  | .shr _ => .shr
  | .subnReg _ _ => .subnReg
  | .shl _ => .shl
  | .sneReg _ _ => .sneReg
  | .ldI _ => .ldI
  | .jpV0 _ => .jpV0
  | .rnd _ _ => .rnd
  | .drw _ _ _ => .drw
  | .skp _ => .skp
  | .sknp _ => .sknp
  | .ldVxDt _ => .ldVxDt
  | .ldVxKey _ => .ldVxKey
  | .ldDtVx _ => .ldDtVx
  | .ldStVx _ => .ldStVx
  | .addI _ => .addI
  | .ldFont _ => .ldFont
  | .ldBcd _ => .ldBcd
  | .storeRegs _ => .storeRegs
  | .loadRegs _ => .loadRegs

/-- The operands of an instruction as numbers, in written order. -/
def Instr.operands : Instr → List Nat
  | .cls | .ret => []
  | .jp nnn | .call nnn | .ldI nnn | .jpV0 nnn => [nnn.toNat]
  | .seImm x nn | .sneImm x nn | .ldImm x nn | .addImm x nn | .rnd x nn => [x.toNat, nn.toNat]
  | .seReg x y | .sneReg x y | .ldReg x y | .orReg x y | .andReg x y | .xorReg x y | .addReg x y
  | .subReg x y | .subnReg x y => [x.toNat, y.toNat]
  | .drw x y n => [x.toNat, y.toNat, n.toNat]
  | .shr x | .shl x | .skp x | .sknp x | .ldVxDt x | .ldVxKey x | .ldDtVx x | .ldStVx x | .addI x
  | .ldFont x | .ldBcd x | .storeRegs x | .loadRegs x => [x.toNat]

/-- An instruction as it is written. -/
def Instr.source (i : Instr) : Source := ⟨i.op, i.operands⟩

/-- An instruction is well formed when its written form is; the field types of `Instr` make every
instruction so, and an ill-formed written form has no instruction (`Source.instr`). -/
def Instr.wellFormed (i : Instr) : Bool := i.source.wellFormed

/-- The instruction a written form stands for: none where the check refuses it (rule R58). -/
def Source.instr (src : Source) : Option Instr :=
  if src.wellFormed then
    match src.op, src.operands with
    | .cls, [] => some .cls
    | .ret, [] => some .ret
    | .jp, [nnn] => some (.jp (.ofNat 12 nnn))
    | .call, [nnn] => some (.call (.ofNat 12 nnn))
    | .seImm, [x, nn] => some (.seImm (.ofNat 4 x) (.ofNat 8 nn))
    | .sneImm, [x, nn] => some (.sneImm (.ofNat 4 x) (.ofNat 8 nn))
    | .seReg, [x, y] => some (.seReg (.ofNat 4 x) (.ofNat 4 y))
    | .ldImm, [x, nn] => some (.ldImm (.ofNat 4 x) (.ofNat 8 nn))
    | .addImm, [x, nn] => some (.addImm (.ofNat 4 x) (.ofNat 8 nn))
    | .ldReg, [x, y] => some (.ldReg (.ofNat 4 x) (.ofNat 4 y))
    | .orReg, [x, y] => some (.orReg (.ofNat 4 x) (.ofNat 4 y))
    | .andReg, [x, y] => some (.andReg (.ofNat 4 x) (.ofNat 4 y))
    | .xorReg, [x, y] => some (.xorReg (.ofNat 4 x) (.ofNat 4 y))
    | .addReg, [x, y] => some (.addReg (.ofNat 4 x) (.ofNat 4 y))
    | .subReg, [x, y] => some (.subReg (.ofNat 4 x) (.ofNat 4 y))
    | .shr, [x] => some (.shr (.ofNat 4 x))
    | .subnReg, [x, y] => some (.subnReg (.ofNat 4 x) (.ofNat 4 y))
    | .shl, [x] => some (.shl (.ofNat 4 x))
    | .sneReg, [x, y] => some (.sneReg (.ofNat 4 x) (.ofNat 4 y))
    | .ldI, [nnn] => some (.ldI (.ofNat 12 nnn))
    | .jpV0, [nnn] => some (.jpV0 (.ofNat 12 nnn))
    | .rnd, [x, nn] => some (.rnd (.ofNat 4 x) (.ofNat 8 nn))
    | .drw, [x, y, n] => some (.drw (.ofNat 4 x) (.ofNat 4 y) (.ofNat 4 n))
    | .skp, [x] => some (.skp (.ofNat 4 x))
    | .sknp, [x] => some (.sknp (.ofNat 4 x))
    | .ldVxDt, [x] => some (.ldVxDt (.ofNat 4 x))
    | .ldVxKey, [x] => some (.ldVxKey (.ofNat 4 x))
    | .ldDtVx, [x] => some (.ldDtVx (.ofNat 4 x))
    | .ldStVx, [x] => some (.ldStVx (.ofNat 4 x))
    | .addI, [x] => some (.addI (.ofNat 4 x))
    | .ldFont, [x] => some (.ldFont (.ofNat 4 x))
    | .ldBcd, [x] => some (.ldBcd (.ofNat 4 x))
    | .storeRegs, [x] => some (.storeRegs (.ofNat 4 x))
    | .loadRegs, [x] => some (.loadRegs (.ofNat 4 x))
    | _, _ => none
  else none

end Sys2Proof
end

