-- ==== Sys2Proof/Decode.lean ====
section
/-! DEFINITION. Decoding and encoding: the fields of `30_encoding.md` rule R51, the strict dispatch of
rules R54 to R56, the opcode table's masks and patterns, and the encoder written from the same rows.
The opcode numbers are the spec's own decision D1 (log entry 1). -/

namespace Sys2Proof

/-- `OP = w[15:12]`. -/
def fieldOP (w : Word) : Nibble := w.extractLsb' 12 4

/-- `X = w[11:8]`. -/
def fieldX (w : Word) : Reg := w.extractLsb' 8 4

/-- `Y = w[7:4]`. -/
def fieldY (w : Word) : Reg := w.extractLsb' 4 4

/-- `N = w[3:0]`. -/
def fieldN (w : Word) : Nibble := w.extractLsb' 0 4

/-- `NN = w[7:0]`. -/
def fieldNN (w : Word) : Byte := w.extractLsb' 0 8

/-- `NNN = w[11:0]`. -/
def fieldNNN (w : Word) : Addr := w.extractLsb' 0 12

/-- Family 0: only 00E0 and 00EE (rule R55). -/
def decodeFamily0 (w : Word) : Option Instr :=
  if w = 0x00E0#16 then some .cls else if w = 0x00EE#16 then some .ret else none

/-- Family 8: the sub-opcode is N (rule R54 rows 11 to 19). -/
def decodeFamily8 (w : Word) : Option Instr :=
  match (fieldN w).toNat with
  | 0x0 => some (.ldReg (fieldX w) (fieldY w))
  | 0x1 => some (.orReg (fieldX w) (fieldY w))
  | 0x2 => some (.andReg (fieldX w) (fieldY w))
  | 0x3 => some (.xorReg (fieldX w) (fieldY w))
  | 0x4 => some (.addReg (fieldX w) (fieldY w))
  | 0x5 => some (.subReg (fieldX w) (fieldY w))
  | 0x6 => some (.shr (fieldX w))
  | 0x7 => some (.subnReg (fieldX w) (fieldY w))
  | 0xE => some (.shl (fieldX w))
  | _ => none

/-- Family E: the sub-opcode is NN (rule R54 rows 24, 25). -/
def decodeFamilyE (w : Word) : Option Instr :=
  match (fieldNN w).toNat with
  | 0x9E => some (.skp (fieldX w))
  | 0xA1 => some (.sknp (fieldX w))
  | _ => none

/-- Family F: the sub-opcode is NN (rule R54 rows 26 to 34). -/
def decodeFamilyF (w : Word) : Option Instr :=
  match (fieldNN w).toNat with
  | 0x07 => some (.ldVxDt (fieldX w))
  | 0x0A => some (.ldVxKey (fieldX w))
  | 0x15 => some (.ldDtVx (fieldX w))
  | 0x18 => some (.ldStVx (fieldX w))
  | 0x1E => some (.addI (fieldX w))
  | 0x29 => some (.ldFont (fieldX w))
  | 0x33 => some (.ldBcd (fieldX w))
  | 0x55 => some (.storeRegs (fieldX w))
  | 0x65 => some (.loadRegs (fieldX w))
  | _ => none

/-- The dispatch of an instruction word: the one instruction it selects, or none, an unimplemented
opcode (rules R54, R55; `40_cycle.md` rule R68). It depends on the word alone. -/
def decodeWord (w : Word) : Option Instr :=
  match (fieldOP w).toNat with
  | 0x0 => decodeFamily0 w
  | 0x1 => some (.jp (fieldNNN w))
  | 0x2 => some (.call (fieldNNN w))
  | 0x3 => some (.seImm (fieldX w) (fieldNN w))
  | 0x4 => some (.sneImm (fieldX w) (fieldNN w))
  | 0x5 => if fieldN w = 0 then some (.seReg (fieldX w) (fieldY w)) else none
  | 0x6 => some (.ldImm (fieldX w) (fieldNN w))
  | 0x7 => some (.addImm (fieldX w) (fieldNN w))
  | 0x8 => decodeFamily8 w
  | 0x9 => if fieldN w = 0 then some (.sneReg (fieldX w) (fieldY w)) else none
  | 0xA => some (.ldI (fieldNNN w))
  | 0xB => some (.jpV0 (fieldNNN w))
  | 0xC => some (.rnd (fieldX w) (fieldNN w))
  | 0xD => some (.drw (fieldX w) (fieldY w) (fieldN w))
  | 0xE => decodeFamilyE w
  | 0xF => decodeFamilyF w
  | _ => none

/-- Why bytes hold no instruction. -/
inductive DecodeError where
  /-- the word matches no row (rule R55): `tick` raises `UnimplementedOpcode w` -/
  | unimplemented (w : Word)
  /-- fewer than the two bytes every instruction has (rule R50) -/
  | truncated
deriving DecidableEq, Repr

/-- A big-endian word from its two bytes (`20_memory.md` rule R34). -/
def wordOfBytes (hi lo : Byte) : Word := hi ++ lo

/-- The high byte of a word, at the lower address. -/
def highByte (w : Word) : Byte := w.extractLsb' 8 8

/-- The low byte of a word, at the next address. -/
def lowByte (w : Word) : Byte := w.extractLsb' 0 8

/-- Decoding a byte stream: the instruction of the first two bytes and the bytes after it. -/
def decode : List Byte → Except DecodeError (Instr × List Byte)
  | hi :: lo :: rest =>
    match decodeWord (wordOfBytes hi lo) with
    | some i => .ok (i, rest)
    | none => .error (.unimplemented (wordOfBytes hi lo))
  | [] => .error .truncated
  | [_] => .error .truncated

/-- The word of an instruction (rule R54); the shifts emit Y = 0 (rule R56). -/
def encodeWord : Instr → Word
  | .cls => 0x00E0#16
  | .ret => 0x00EE#16
  | .jp nnn => 0x1#4 ++ nnn
  | .call nnn => 0x2#4 ++ nnn
  | .seImm x nn => 0x3#4 ++ x ++ nn
  | .sneImm x nn => 0x4#4 ++ x ++ nn
  | .seReg x y => 0x5#4 ++ x ++ y ++ 0x0#4
  | .ldImm x nn => 0x6#4 ++ x ++ nn
  | .addImm x nn => 0x7#4 ++ x ++ nn
  | .ldReg x y => 0x8#4 ++ x ++ y ++ 0x0#4
  | .orReg x y => 0x8#4 ++ x ++ y ++ 0x1#4
  | .andReg x y => 0x8#4 ++ x ++ y ++ 0x2#4
  | .xorReg x y => 0x8#4 ++ x ++ y ++ 0x3#4
  | .addReg x y => 0x8#4 ++ x ++ y ++ 0x4#4
  | .subReg x y => 0x8#4 ++ x ++ y ++ 0x5#4
  | .shr x => 0x8#4 ++ x ++ 0x06#8
  | .subnReg x y => 0x8#4 ++ x ++ y ++ 0x7#4
  | .shl x => 0x8#4 ++ x ++ 0x0E#8
  | .sneReg x y => 0x9#4 ++ x ++ y ++ 0x0#4
  | .ldI nnn => 0xA#4 ++ nnn
  | .jpV0 nnn => 0xB#4 ++ nnn
  | .rnd x nn => 0xC#4 ++ x ++ nn
  | .drw x y n => 0xD#4 ++ x ++ y ++ n
  | .skp x => 0xE#4 ++ x ++ 0x9E#8
  | .sknp x => 0xE#4 ++ x ++ 0xA1#8
  | .ldVxDt x => 0xF#4 ++ x ++ 0x07#8
  | .ldVxKey x => 0xF#4 ++ x ++ 0x0A#8
  | .ldDtVx x => 0xF#4 ++ x ++ 0x15#8
  | .ldStVx x => 0xF#4 ++ x ++ 0x18#8
  | .addI x => 0xF#4 ++ x ++ 0x1E#8
  | .ldFont x => 0xF#4 ++ x ++ 0x29#8
  | .ldBcd x => 0xF#4 ++ x ++ 0x33#8
  | .storeRegs x => 0xF#4 ++ x ++ 0x55#8
  | .loadRegs x => 0xF#4 ++ x ++ 0x65#8

/-- The bytes of an instruction in memory order (`20_memory.md` rule R34). -/
def encode (i : Instr) : List Byte := [highByte (encodeWord i), lowByte (encodeWord i)]

/-- The mask of an operation's row of rule R54. -/
def Op.mask : Op → Word
  | .cls | .ret => 0xFFFF#16
  | .jp | .call | .seImm | .sneImm | .ldImm | .addImm | .ldI | .jpV0 | .rnd | .drw => 0xF000#16
  | .seReg | .ldReg | .orReg | .andReg | .xorReg | .addReg | .subReg | .shr | .subnReg | .shl
  | .sneReg => 0xF00F#16
  | .skp | .sknp | .ldVxDt | .ldVxKey | .ldDtVx | .ldStVx | .addI | .ldFont | .ldBcd | .storeRegs
  | .loadRegs => 0xF0FF#16

/-- The pattern of an operation's row of rule R54 (its column "match"). -/
def Op.pattern : Op → Word
  | .cls => 0x00E0#16
  | .ret => 0x00EE#16
  | .jp => 0x1000#16
  | .call => 0x2000#16
  | .seImm => 0x3000#16
  | .sneImm => 0x4000#16
  | .seReg => 0x5000#16
  | .ldImm => 0x6000#16
  | .addImm => 0x7000#16
  | .ldReg => 0x8000#16
  | .orReg => 0x8001#16
  | .andReg => 0x8002#16
  | .xorReg => 0x8003#16
  | .addReg => 0x8004#16
  | .subReg => 0x8005#16
  | .shr => 0x8006#16
  | .subnReg => 0x8007#16
  | .shl => 0x800E#16
  | .sneReg => 0x9000#16
  | .ldI => 0xA000#16
  | .jpV0 => 0xB000#16
  | .rnd => 0xC000#16
  | .drw => 0xD000#16
  | .skp => 0xE09E#16
  | .sknp => 0xE0A1#16
  | .ldVxDt => 0xF007#16
  | .ldVxKey => 0xF00A#16
  | .ldDtVx => 0xF015#16
  | .ldStVx => 0xF018#16
  | .addI => 0xF01E#16
  | .ldFont => 0xF029#16
  | .ldBcd => 0xF033#16
  | .storeRegs => 0xF055#16
  | .loadRegs => 0xF065#16

/-- "A word `w` selects row r exactly when `(w & mask_r) == match_r`" (rule R54). -/
def Op.selectedBy (o : Op) (w : Word) : Bool := w &&& o.mask == o.pattern

/-- The instruction word whose bits, numbered as `spec/opcode_table.json` numbers them, are `w`. -/
def tableWord (nbits w : Nat) : Word := BitVec.ofNat 16 (w % 2 ^ nbits)

/-- What the decoder reads from the bytes of a word of the opcode table. -/
def decodeTableWord (nbits w : Nat) : Option Instr :=
  match decode [highByte (tableWord nbits w), lowByte (tableWord nbits w)] with
  | .ok (i, _) => some i
  | .error _ => none

end Sys2Proof
end

