-- ==== Sys2Proof/Config.lean ====
section
/-! DEFINITION. The open parameters of `00_scope.md` rule R6 as plain data (a `Config`, held by the
state so that every claim about all states is a claim about every configuration; log entry 3), the host's
commands, and the free values behind `rnd` (log entry 4) and the schedule (log entry 5). The default values
of the parameters stand in `Machine/Defaults.lean`. -/

namespace Sys2Proof

/-- `FONT`: the 80 bytes of the glyph table (`20_memory.md` rule R38), any 80 bytes. -/
abbrev Font := Vector Byte 80

/-- `DRAW_VARIANT` (`44_display.md` rule R126). -/
inductive DrawVariant where
  /-- a 1 bit toggles its cell, VF reports a set cell turned off -/
  | xorCollision
  /-- each cell takes the sprite bit, VF ends 0 -/
  | sourceOverwrite
deriving DecidableEq, Repr

/-- `BCD_VARIANT` (`43_index_memory.md` rule R113). -/
inductive BcdVariant where
  /-- leading zero digits are omitted: 1 to 3 bytes -/
  | variableLength
  /-- always three bytes -/
  | fixed3
deriving DecidableEq, Repr

/-- What an implementation fixes: the three configuration parameters of rule R6. -/
structure Config where
  font : Font
  draw : DrawVariant
  bcd : BcdVariant
deriving DecidableEq, Repr

/-- The random byte of `RND` where the host names none: a free value, one per draw, with no body, so
that nothing is known of it (`42_alu.md` rule R101, D17; DESIGN CHOICE of the form, log entry 4, safe). -/
opaque Config.freeRnd : Nat → Byte

/-! ### The schedule -/

namespace Machine

/-- The commands of the host (`10_state.md` rule R21, signal `cmd` with its arguments). -/
inductive Command where
  /-- `TICK` with the random byte the host presents (rule R21, `rnd`) -/
  | tick (rnd : Byte)
  /-- `TICK_TIMERS` -/
  | tickTimers
  /-- `KEYPRESS`; the index port is 4 bits wide -/
  | keypress (index : Nibble) (pressed : Bool)
  /-- `LOAD` with the program image -/
  | load (bytes : List Byte)
  /-- `RESET`, and `new()`, which equals it (`70_reset_and_hazards.md` rule R180) -/
  | reset
  /-- `NONE`: changes nothing -/
  | none
deriving DecidableEq, Repr, Inhabited

/-- What the host does once the commands it is known to give are served: the schedule is "any finite or
infinite sequence" (`00_scope.md` rule R6; log entry 5). -/
inductive HostTail where
  /-- a finite schedule has ended: the host gives no further command -/
  | ended
  /-- the host gives `tick()` for ever -/
  | ticking
  /-- an infinite sequence of commands of which nothing is known: `Config.freeCommand` -/
  | free
deriving DecidableEq, Repr

end Machine

/-- The commands of an infinite schedule of which nothing is known, one per number: a free value with no body,
so that a claim about it is a claim about every infinite sequence (`00_scope.md` rules R4, R6, D22; the form
is a DESIGN CHOICE, log entry 5, safe). -/
opaque Config.freeCommand : Nat → Machine.Command

end Sys2Proof
end

