-- ==== Sys2Proof/Machine/State.lean ====
section
/-! DEFINITION. The state of the Machine as plain data: everything `10_state.md` gives it, the open
parameters and inputs of `00_scope.md` rule R6, and two counters of the model's own. -/

namespace Sys2Proof.Machine

/-- The four fatal conditions (`60_exceptions.md` rule R150): the contents of the FAULT latch.
The spec describes what taking one does (rule R157), so it is taken: a NEXT state with the latch set.
No step answers `Host.Outcome.fault` (log entry 6, safe). -/
inductive Fault where
  /-- code 1: an address above 4095 (fetch, sprite read, BCD store, block store and load, `load`), a
  PC above 4095 at the end of a tick, or a register-derived index out of range (rule R151); safe -/
  | boundsViolation
  /-- code 2: `CALL` with 16 return addresses held (rule R152); safe -/
  | stackExhaustion
  /-- code 3: `RET` with none held (rule R153); safe -/
  | stackUnderflow
  /-- code 4: a word that is no instruction, recorded (rule R154); safe -/
  | unimplementedOpcode (w : Word)
deriving DecidableEq, Repr

/-- Why a step has no meaning. Every instruction has one, so no step answers this. -/
inductive Refusal where
  /-- an instruction not modelled yet, by its mnemonic (`Machine/Dispatch.lean` alone); safe -/
  | notModelled (mnemonic : String)
deriving DecidableEq, Repr

/-- Memory as (address, byte) pairs, addresses strictly rising, holding only bytes that differ from
the reset contents (`Memory.wf`; log entry 8). -/
abbrev Memory := List Host.Cell

/-- The 64 by 32 display (`10_state.md` rule R16), one row of 64 cells per row y: the cell of column
x and row y is bit x of row y (log entry 9). -/
abbrev Display := Vector (BitVec 64) 32

/-- The state of the Machine. -/
structure State where
  /-- general registers V0 to VF (`10_state.md` rule R10) -/
  v : Vector Byte 16
  /-- index register I (rule R12) -/
  i : Word
  /-- program counter PC (rule R13) -/
  pc : Word
  /-- call stack entries S[0] to S[15] (rule R14) -/
  stack : Vector Word 16
  /-- stack pointer SP, "always in [0,16]" (rule R14; log entry 12) -/
  sp : Fin 17
  /-- delay timer DT (rule R18) -/
  dt : Byte
  /-- sound timer ST (rule R18) -/
  st : Byte
  /-- memory MEM (rule R15) -/
  mem : Memory
  /-- display buffer DISP (rule R16) -/
  display : Display
  /-- key flags KEY[0] to KEY[15] (rule R17) -/
  keys : Vector Bool 16
  /-- the FAULT latch (rule R19) -/
  fault : Option Fault
  /-- the output `tone_event` of the last step (rule R22) -/
  toneEvent : Bool
  /-- the input port `rnd` of the tick (rule R21); none: the host names no byte (log entry 4) -/
  rnd : Option Byte
  /-- the commands the host is known to give, not yet served, first one next (log entry 5) -/
  pending : List Command
  /-- what the host does after them (log entry 5) -/
  tail : HostTail
  /-- the open parameters of `00_scope.md` rule R6, fixed for the machine (log entry 3) -/
  cfg : Config
  /-- the MODEL's own: how many free random bytes have been drawn (log entry 4) -/
  draws : Nat
  /-- the MODEL's own: how many commands of the free schedule have been served (log entry 5) -/
  served : Nat
deriving DecidableEq, Repr

/-- What a step answers. -/
abbrev Outcome := Host.Outcome State Fault Refusal

/-- The baseline state of `10_state.md` rule R23 for a configuration: memory lists nothing, so it
reads as the reset contents. The zeros the source does not give are the spec's decision D11 (log
entry 2, unsafe). The schedule is free from its first command on: rule R6 gives it no default. -/
def State.baseline (cfg : Config) : State where
  v := Vector.replicate 16 0
  i := 0
  pc := 0x200
  stack := Vector.replicate 16 0
  sp := 0
  dt := 0
  st := 0
  mem := []
  display := Vector.replicate 32 0
  keys := Vector.replicate 16 false
  fault := none
  toneEvent := false
  rnd := none
  pending := []
  tail := .free
  cfg := cfg
  draws := 0
  served := 0

/-- The machine right after `new()` or `reset()` with the default parameters (rules R23, R180, R181). -/
def State.reset : State := State.baseline defaultConfig

end Sys2Proof.Machine
end

