-- ==== Sys2Proof/Machine/Ops.lean ====
section
/-! DEFINITION. The named operations on the state: registers, memory, display cells, call stack, taking
a fatal condition, and the end of a tick. -/

namespace Sys2Proof.Machine

/-! ### General registers (`10_state.md` rules R10, R11) -/

/-- VF, the register that is also the flag (rule R11). -/
def VF : Reg := 0xF#4

/-- Read of `V[x]`. -/
def State.readV (s : State) (x : Reg) : Byte := s.v[x.toNat]'(x.isLt)

/-- `V[x] <- b`. -/
def State.writeV (s : State) (x : Reg) (b : Byte) : State := { s with v := s.v.set x.toNat b x.isLt }

/-- `V[k], V[k+1], ... <- bytes`, ascending (`43_index_memory.md` rule R115). -/
def State.writeRegsFrom : Nat → List Byte → State → State
  | _, [], s => s
  | k, b :: bs, s => State.writeRegsFrom (k + 1) bs (s.writeV (BitVec.ofNat 4 k) b)

/-- The values of `V[0]` to `V[n-1]`, ascending (rule R114). -/
def State.firstRegs (s : State) (n : Nat) : List Byte := s.v.toList.take n

/-! ### Memory (`20_memory.md` rules R30 to R33) -/

/-- What an address that memory does not list reads as: the reset contents of `10_state.md` rule R23,
the glyph table at 0x000 to 0x04F and zero above (log entry 8). -/
def unlisted (font : Font) (a : Nat) : Byte := if h : a < 80 then font[a] else 0

/-- The byte at an address. -/
def Memory.read (font : Font) : Memory → Nat → Byte
  | [], a => unlisted font a
  | (k, b) :: m, a => if a = k then b else Memory.read font m a

/-- The list without the address. -/
def Memory.erase : Memory → Nat → Memory
  | [], _ => []
  | (k, b) :: m, a => if a = k then m else (k, b) :: Memory.erase m a

/-- The list with the address at the byte, addresses still rising. -/
def Memory.insert : Memory → Nat → Byte → Memory
  | [], a, v => [(a, v)]
  | (k, b) :: m, a, v =>
    if a < k then (a, v) :: (k, b) :: m
    else if a = k then (a, v) :: m
    else (k, b) :: Memory.insert m a v

/-- `MEM[a] <- v`: the value an unlisted address reads as is not listed. -/
def Memory.write (font : Font) (m : Memory) (a : Nat) (v : Byte) : Memory :=
  if v = unlisted font a then Memory.erase m a else Memory.insert m a v

/-- The canonical form from address `lo` upward: addresses strictly rising and below 4096, no entry
equal to what its address reads as unlisted. -/
def Memory.wfFrom (font : Font) : Nat → Memory → Bool
  | _, [] => true
  | lo, (k, b) :: m =>
    decide (lo ≤ k) && decide (k < 4096) && decide (b ≠ unlisted font k) && Memory.wfFrom font (k + 1) m

/-- The canonical form of memory. -/
def Memory.wf (font : Font) (m : Memory) : Bool := Memory.wfFrom font 0 m

/-- `MEM[a]`. -/
def State.peek (s : State) (a : Nat) : Byte := Memory.read s.cfg.font s.mem a

/-- `MEM[a] <- b`. -/
def State.poke (s : State) (a : Nat) (b : Byte) : State :=
  { s with mem := Memory.write s.cfg.font s.mem a b }

/-- The n bytes at a, a+1, ..., ascending (rule R35). -/
def State.peekBytes (s : State) : Nat → Nat → List Byte
  | _, 0 => []
  | a, n + 1 => s.peek a :: State.peekBytes s (a + 1) n

/-- The bytes written at a, a+1, ..., ascending (rule R35). -/
def State.pokeBytes : Nat → List Byte → State → State
  | _, [], s => s
  | a, b :: bs, s => State.pokeBytes (a + 1) bs (s.poke a b)

/-- All n addresses from a are at most 4095, as mathematical integers: never reduced (rule R31). No
address is none out of range. -/
def inRange (a n : Nat) : Bool := n == 0 || decide (a + n ≤ 4096)

/-- `MemRead(a, n)`: bounds-checked (rules R31, R32). -/
def State.memRead (s : State) (a n : Nat) : Except Fault (List Byte) :=
  if inRange a n then .ok (s.peekBytes a n) else .error .boundsViolation

/-- `MemWrite(a, 1, ..)` for each byte in turn, every address checked before any byte is written
(rules R31, R33, R41). -/
def State.memWrite (s : State) (a : Nat) (bytes : List Byte) : Except Fault State :=
  if inRange a bytes.length then .ok (s.pokeBytes a bytes) else .error .boundsViolation

/-! ### Display (`10_state.md` rule R16) -/

/-- `DISP[idx]`, with `idx = y*64 + x`. -/
def Display.cell (d : Display) (idx : Nat) : Bool :=
  if h : idx / 64 < 32 then d[idx / 64].getLsbD (idx % 64) else false

/-- A row with the cell of column x at b. -/
def setColumn (row : BitVec 64) (x : Nat) (b : Bool) : BitVec 64 :=
  if b then row ||| (1#64 <<< x) else row &&& ~~~(1#64 <<< x)

/-- `DISP[idx] <- b`. -/
def Display.setCell (d : Display) (idx : Nat) (b : Bool) : Display :=
  if h : idx / 64 < 32 then d.set (idx / 64) (setColumn d[idx / 64] (idx % 64) b) else d

/-- The display with every cell false. -/
def blankDisplay : Display := Vector.replicate 32 0

/-! ### Call stack (`10_state.md` rule R14) -/

/-- `push(w)`: requires SP < 16. -/
def State.push (s : State) (w : Word) : Except Fault State :=
  if h : s.sp.val < 16 then
    .ok { s with stack := s.stack.set s.sp.val w h, sp := ⟨s.sp.val + 1, Nat.succ_lt_succ h⟩ }
  else .error .stackExhaustion

/-- `pop()`: requires SP > 0; the popped address and the state with SP one less. -/
def State.pop (s : State) : Except Fault (Word × State) :=
  match s.sp with
  | ⟨0, _⟩ => .error .stackUnderflow
  | ⟨k + 1, h⟩ => .ok (s.stack[k]'(Nat.lt_of_succ_lt_succ h), { s with sp := ⟨k, Nat.lt_of_succ_lt h⟩ })

/-! ### Taking a fatal condition (`60_exceptions.md` rules R157, R158)

The operation commits nothing and the latch records the condition; PC keeps the address of the
faulting instruction, no state is saved, control goes nowhere. There is no return: only `reset`
clears the latch (`Machine/HostOps.lean`). -/

/-- The state before the operation with the latch set. -/
def State.latch (s : State) (f : Fault) : State := { s with fault := some f, toneEvent := false }

/-- `raise f` for an operation that began in s. -/
def raise (f : Fault) (s : State) : Outcome := .next (s.latch f)

/-- Go on with the value of a checked operation, or raise its fatal condition. -/
def attempt {α : Type} (s : State) (r : Except Fault α) (k : α → Outcome) : Outcome :=
  match r with
  | .ok x => k x
  | .error f => raise f s

/-! ### The end of a tick (`40_cycle.md` rules R67, R69, R70, R72) -/

/-- `npc`, the post-fetch PC, as an integer (rule R67; `20_memory.md` rule R31). -/
def State.npc (s : State) : Nat := s.pc.toNat + 2

/-- The end of a tick that began in `before`: the PC check of rule R70, then the commit of `after` with
`PC <- pc'`; `tone_event` is 0 in every step but `TICK_TIMERS` (`10_state.md` rule R22). -/
def finish (before after : State) (pc' : Nat) : Outcome :=
  if pc' ≤ 4095 then .next { after with pc := BitVec.ofNat 16 pc', toneEvent := false }
  else raise .boundsViolation before

/-- The end of a tick whose handler does not write the PC (rule R69). -/
def advance (before after : State) : Outcome := finish before after before.npc

/-- The end of a skip: 2 further when the condition holds (`41_control_flow.md` rules R78 to R81). -/
def skipIf (c : Bool) (s : State) : Outcome := finish s s (if c then s.npc + 2 else s.npc)

end Sys2Proof.Machine
end

