-- ==== Sys2Proof/Machine/Flags.lean ====
section
/-! DEFINITION. The flag computations (`42_alu.md` rules R96 to R100, R102, R103; `10_state.md` rule
R11): VF is the only flag, and every value written to it as a flag is 0 or 1. -/

namespace Sys2Proof.Machine

/-- `b ? 1 : 0` as a byte. -/
def flagByte (b : Bool) : Byte := if b then 1 else 0

/-- The carry out of `a + b`: the ninth bit of the sum (rules R96, R103). -/
def carryOut (a b : Byte) : Bool := decide (255 < a.toNat + b.toNat)

/-- No borrow in `a - b`: `a >= b`, unsigned (rules R97, R99, R103). -/
def noBorrow (a b : Byte) : Bool := decide (b.toNat ≤ a.toNat)

/-- The bit a right shift drops: bit 0 of the old value (rule R98). -/
def droppedLow (a : Byte) : Bool := a.getLsbD 0

/-- The bit a left shift drops: bit 7 of the old value (rule R100). -/
def droppedHigh (a : Byte) : Bool := a.getLsbD 7

/-- `V[x]` takes the result, then VF the flag: with x = 15 the flag is what remains (rule R102). -/
def State.writeFlagged (s : State) (x : Reg) (result : Byte) (flag : Bool) : State :=
  (s.writeV x result).writeV VF (flagByte flag)

end Sys2Proof.Machine
end

