-- ==== Sys2Proof/Machine/Operands.lean ====
section
/-! DEFINITION. Operand forms: extended immediates, register-derived indices, decimal digits, sprite
geometry, the random byte, the pressed keys. -/

namespace Sys2Proof.Machine

/-- `zext_16(NNN)` (`30_encoding.md` rule R53). -/
def addrWord (nnn : Addr) : Word := nnn.setWidth 16

/-- `zext_16(V[x])` (rule R53). -/
def byteWord (b : Byte) : Word := b.setWidth 16

/-- A key number from a register: the whole byte is tested, the low nibble is not taken
(`45_keypad_timers.md` rules R135, R136). -/
def keyIndex (b : Byte) : Except Fault (Fin 16) :=
  if h : b.toNat < 16 then .ok ⟨b.toNat, h⟩ else .error .boundsViolation

/-- The address of the glyph of a digit: `5 * V[x]`, V[x] at most 15 (`43_index_memory.md` rule R112). -/
def glyphAddress (b : Byte) : Except Fault Word :=
  if b.toNat ≤ 15 then .ok (BitVec.ofNat 16 (5 * b.toNat)) else .error .boundsViolation

/-- The decimal digits that `LD B,Vx` stores, most significant first (rule R113). -/
def bcdDigits (variant : BcdVariant) (b : Byte) : List Byte :=
  let h := b.toNat / 100
  let t := b.toNat / 10 % 10
  let o := b.toNat % 10
  match variant with
  | .fixed3 => [BitVec.ofNat 8 h, BitVec.ofNat 8 t, BitVec.ofNat 8 o]
  | .variableLength =>
    if h ≠ 0 then [BitVec.ofNat 8 h, BitVec.ofNat 8 t, BitVec.ofNat 8 o]
    else if t ≠ 0 then [BitVec.ofNat 8 t, BitVec.ofNat 8 o]
    else [BitVec.ofNat 8 o]

/-- The highest k below n with `KEY[k]` (`45_keypad_timers.md` rule R138). -/
def highestKeyBelow (keys : Vector Bool 16) : (n : Nat) → n ≤ 16 → Option Nat
  | 0, _ => none
  | k + 1, h => if keys[k] then some k else highestKeyBelow keys k (Nat.le_of_succ_le h)

/-- The highest pressed key, none when no key is down. -/
def highestKey (keys : Vector Bool 16) : Option Nat := highestKeyBelow keys 16 (Nat.le_refl 16)

/-- The random byte of this tick: the input port, or a free value where the host names none
(`42_alu.md` rule R101; log entry 4). -/
def State.rndByte (s : State) : Byte :=
  match s.rnd with
  | some b => b
  | none => Config.freeRnd s.draws

/-! ### Sprites (`44_display.md` rules R126, R127) -/

/-- The sprite bit of column c: bit `7 - c`, the most significant bit leftmost (rule R127). -/
def spriteBit (row : Byte) (c : Nat) : Bool := row.getLsbD (7 - c)

/-- The cell of pixel (r, c) of a sprite at (x0, y0): both coordinates wrap (rule R127). -/
def cellIndex (x0 y0 r c : Nat) : Nat := (y0 + r) % 32 * 64 + (x0 + c) % 64

/-- One pixel: the display and whether a set cell was turned off so far (rule R126). -/
def drawPixel (variant : DrawVariant) (bit : Bool) (idx : Nat) (acc : Display × Bool) : Display × Bool :=
  match variant with
  | .xorCollision =>
    if bit then (Display.setCell acc.1 idx (!Display.cell acc.1 idx), acc.2 || Display.cell acc.1 idx)
    else acc
  | .sourceOverwrite => (Display.setCell acc.1 idx bit, acc.2)

/-- The pixels of columns 0 to n-1 of sprite row r. -/
def drawColumns (variant : DrawVariant) (x0 y0 r : Nat) (row : Byte) :
    Nat → Display × Bool → Display × Bool
  | 0, acc => acc
  | c + 1, acc =>
    drawPixel variant (spriteBit row c) (cellIndex x0 y0 r c) (drawColumns variant x0 y0 r row c acc)

/-- The sprite rows from row r downward. -/
def drawRowsFrom (variant : DrawVariant) (x0 y0 : Nat) : Nat → List Byte → Display × Bool → Display × Bool
  | _, [], acc => acc
  | r, row :: rows, acc =>
    drawRowsFrom variant x0 y0 (r + 1) rows (drawColumns variant x0 y0 r row 8 acc)

/-- A whole sprite: the new display and the collision result (rule R126). -/
def drawSprite (variant : DrawVariant) (x0 y0 : Nat) (rows : List Byte) (d : Display) : Display × Bool :=
  drawRowsFrom variant x0 y0 0 rows (d, false)

end Sys2Proof.Machine
end

