-- ==== Sys2Proof/Machine/Alu.lean ====
section
/-! DEFINITION. Register and ALU instructions (`42_alu.md`): operands are read before anything is
written, arithmetic wraps modulo 256, the flag is written last (rules R102, R103). -/

namespace Sys2Proof.Machine

/-- `LD Vx,NN` (rule R90). -/
def execLdImm (x : Reg) (nn : Byte) (s : State) : Outcome := advance s (s.writeV x nn)

/-- `ADD Vx,NN` (rule R91): no flag. -/
def execAddImm (x : Reg) (nn : Byte) (s : State) : Outcome := advance s (s.writeV x (s.readV x + nn))

/-- `LD Vx,Vy` (rule R92). -/
def execLdReg (x y : Reg) (s : State) : Outcome := advance s (s.writeV x (s.readV y))

/-- `OR Vx,Vy` (rule R93): no flag. -/
def execOrReg (x y : Reg) (s : State) : Outcome := advance s (s.writeV x (s.readV x ||| s.readV y))

/-- `AND Vx,Vy` (rule R94): no flag. -/
def execAndReg (x y : Reg) (s : State) : Outcome := advance s (s.writeV x (s.readV x &&& s.readV y))

/-- `XOR Vx,Vy` (rule R95): no flag. -/
def execXorReg (x y : Reg) (s : State) : Outcome := advance s (s.writeV x (s.readV x ^^^ s.readV y))

/-- `ADD Vx,Vy` (rule R96): VF is the carry out. -/
def execAddReg (x y : Reg) (s : State) : Outcome :=
  let a := s.readV x
  let b := s.readV y
  advance s (s.writeFlagged x (a + b) (carryOut a b))

/-- `SUB Vx,Vy` (rule R97): VF is 1 when no borrow. -/
def execSubReg (x y : Reg) (s : State) : Outcome :=
  let a := s.readV x
  let b := s.readV y
  advance s (s.writeFlagged x (a - b) (noBorrow a b))

/-- `SHR Vx` (rule R98): VX shifted in place, VF the dropped bit 0. -/
def execShr (x : Reg) (s : State) : Outcome :=
  let a := s.readV x
  advance s (s.writeFlagged x (a >>> 1) (droppedLow a))

/-- `SUBN Vx,Vy` (rule R99): VY - VX into VX. -/
def execSubnReg (x y : Reg) (s : State) : Outcome :=
  let a := s.readV x
  let b := s.readV y
  advance s (s.writeFlagged x (b - a) (noBorrow b a))

/-- `SHL Vx` (rule R100): VX shifted in place, VF the dropped bit 7. -/
def execShl (x : Reg) (s : State) : Outcome :=
  let a := s.readV x
  advance s (s.writeFlagged x (a <<< 1) (droppedHigh a))

/-- `RND Vx,NN` (rule R101): the random byte ANDed with NN; the model counts the draw (log entry 4). -/
def execRnd (x : Reg) (nn : Byte) (s : State) : Outcome :=
  advance s { s.writeV x (s.rndByte &&& nn) with draws := s.draws + 1 }

end Sys2Proof.Machine
end

