-- ==== Sys2Proof/Machine/ControlFlow.lean ====
section
/-! DEFINITION. Control flow (`41_control_flow.md`): `RET`, `JP`, `CALL`, the four register skips and
`JP V0`. Each meaning is the whole tick of its instruction: handler, PC, end-of-tick check, commit. -/

namespace Sys2Proof.Machine

/-- `RET` (rule R75): PC takes the popped address. -/
def execRet (s : State) : Outcome :=
  attempt s s.pop fun popped => finish s popped.2 popped.1.toNat

/-- `JP NNN` (rule R76). -/
def execJp (nnn : Addr) (s : State) : Outcome := finish s s (addrWord nnn).toNat

/-- `CALL NNN` (rule R77): pushes `npc`, the address of the instruction after it. -/
def execCall (nnn : Addr) (s : State) : Outcome :=
  attempt s (s.push (BitVec.ofNat 16 s.npc)) fun pushed => finish s pushed (addrWord nnn).toNat

/-- `SE Vx,NN` (rule R78). -/
def execSeImm (x : Reg) (nn : Byte) (s : State) : Outcome := skipIf (s.readV x == nn) s

/-- `SNE Vx,NN` (rule R79). -/
def execSneImm (x : Reg) (nn : Byte) (s : State) : Outcome := skipIf (s.readV x != nn) s

/-- `SE Vx,Vy` (rule R80). -/
def execSeReg (x y : Reg) (s : State) : Outcome := skipIf (s.readV x == s.readV y) s

/-- `SNE Vx,Vy` (rule R81). -/
def execSneReg (x y : Reg) (s : State) : Outcome := skipIf (s.readV x != s.readV y) s

/-- `JP V0,NNN` (rule R82): the sum is not reduced; the register is always V0. -/
def execJpV0 (nnn : Addr) (s : State) : Outcome :=
  finish s s ((byteWord (s.readV 0)).toNat + (addrWord nnn).toNat)

end Sys2Proof.Machine
end

