-- ==== Sys2Proof/Machine/IndexMemory.lean ====
section
/-! DEFINITION. Index register and memory instructions (`43_index_memory.md`). Every address is
checked before anything is written; none of the block moves changes I. -/

namespace Sys2Proof.Machine

/-- `LD I,NNN` (rule R110). -/
def execLdI (nnn : Addr) (s : State) : Outcome := advance s { s with i := addrWord nnn }

/-- `ADD I,Vx` (rule R111): modulo 65536, no flag, ST not written (C8). -/
def execAddI (x : Reg) (s : State) : Outcome := advance s { s with i := s.i + byteWord (s.readV x) }

/-- `LD F,Vx` (rule R112). -/
def execLdFont (x : Reg) (s : State) : Outcome :=
  attempt s (glyphAddress (s.readV x)) fun a => advance s { s with i := a }

/-- `LD B,Vx` (rule R113): the digits of the configured variant at I, I+1, ... -/
def execLdBcd (x : Reg) (s : State) : Outcome :=
  attempt s (s.memWrite s.i.toNat (bcdDigits s.cfg.bcd (s.readV x))) fun t => advance s t

/-- `LD [I],Vx` (rule R114): V0 to VX at I to I+X. -/
def execStoreRegs (x : Reg) (s : State) : Outcome :=
  attempt s (s.memWrite s.i.toNat (s.firstRegs (x.toNat + 1))) fun t => advance s t

/-- `LD Vx,[I]` (rule R115): V0 to VX from I to I+X. -/
def execLoadRegs (x : Reg) (s : State) : Outcome :=
  attempt s (s.memRead s.i.toNat (x.toNat + 1)) fun bytes => advance s (State.writeRegsFrom 0 bytes s)

end Sys2Proof.Machine
end

