-- ==== Sys2Proof/Machine/KeypadTimers.lean ====
section
/-! DEFINITION. Keypad and timer instructions (`45_keypad_timers.md`): the program's side of the key
flags and the two timers. -/

namespace Sys2Proof.Machine

/-- `SKP Vx` (rule R135). -/
def execSkp (x : Reg) (s : State) : Outcome :=
  attempt s (keyIndex (s.readV x)) fun k => skipIf s.keys[k] s

/-- `SKNP Vx` (rule R136). -/
def execSknp (x : Reg) (s : State) : Outcome :=
  attempt s (keyIndex (s.readV x)) fun k => skipIf (!s.keys[k]) s

/-- `LD Vx,DT` (rule R137). -/
def execLdVxDt (x : Reg) (s : State) : Outcome := advance s (s.writeV x s.dt)

/-- `LD Vx,K` (rule R138): the highest pressed key, or the same instruction again next tick. -/
def execLdVxKey (x : Reg) (s : State) : Outcome :=
  match highestKey s.keys with
  | some k => advance s (s.writeV x (BitVec.ofNat 8 k))
  | none => finish s s (s.npc - 2)

/-- `LD DT,Vx` (rule R139). -/
def execLdDtVx (x : Reg) (s : State) : Outcome := advance s { s with dt := s.readV x }

/-- `LD ST,Vx` (rule R140): no signal of its own. -/
def execLdStVx (x : Reg) (s : State) : Outcome := advance s { s with st := s.readV x }

end Sys2Proof.Machine
end

