-- ==== Sys2Proof/Machine/Screen.lean ====
section
/-! DEFINITION. Display instructions (`44_display.md`), the only ones that write DISP. -/

namespace Sys2Proof.Machine

/-- `CLS` (rule R125). -/
def execCls (s : State) : Outcome := advance s { s with display := blankDisplay }

/-- `DRW Vx,Vy,N` (rule R126): coordinates read first, sprite rows checked before anything is drawn,
VF written once and last with the collision result of the configured variant. -/
def execDrw (x y : Reg) (n : Nibble) (s : State) : Outcome :=
  attempt s (s.memRead s.i.toNat n.toNat) fun rows =>
    let drawn := drawSprite s.cfg.draw (s.readV x).toNat (s.readV y).toNat rows s.display
    advance s (State.writeV { s with display := drawn.1 } VF (flagByte drawn.2))

end Sys2Proof.Machine
end

