-- ==== Sys2Proof/Machine/HostOps.lean ====
section
/-! DEFINITION. The host's operations and the outputs: the timer countdown engine, the keypad and
display ports (`60_exceptions.md` rules R161 to R165), reset and load (`70_reset_and_hazards.md` rules
R180 to R182), the output signals of `10_state.md` rule R22. -/

namespace Sys2Proof.Machine

/-- An operation that does nothing while FAULT is set; `tone_event` is then 0 (rules R65, R158). -/
def unlessFaulted (s : State) (op : State → Outcome) : Outcome :=
  match s.fault with
  | some _ => .next { s with toneEvent := false }
  | none => op s

/-- A timer's countdown: down by 1, saturating at 0 (rules R161, R162). -/
def countDown (t : Byte) : Byte := if t = 0 then 0 else t - 1

/-- `tick_timers()` (rules R161 to R163): the signal is judged on ST before the decrement. -/
def tickTimers (s : State) : Outcome :=
  .next { s with dt := countDown s.dt, st := countDown s.st, toneEvent := s.st == 1 }

/-- `keypress(index, pressed)` (rule R164). -/
def keypress (index : Nibble) (pressed : Bool) (s : State) : Outcome :=
  .next { s with keys := s.keys.set index.toNat pressed index.isLt, toneEvent := false }

/-- `load(bytes)` (rule R182): copied to 0x200 and up, or a bounds violation and nothing copied. -/
def load (bytes : List Byte) (s : State) : Outcome :=
  attempt s (s.memWrite 0x200 bytes) fun t => .next { t with toneEvent := false }

/-- `reset()` (rule R181): the baseline of rule R23 in every state, FAULT cleared; what is not the
Machine's (the parameters, the host's schedule, the count of free draws) stands (log entry 14). -/
def resetMachine (s : State) : State :=
  { State.baseline s.cfg with
    pending := s.pending, tail := s.tail, served := s.served, draws := s.draws }

/-- `get_display()` (rule R165): the current DISP, in every state; it changes nothing. -/
def getDisplay (s : State) : Display := s.display

/-- The output `fault_valid` (rule R22). -/
def faultValid (s : State) : Bool := s.fault.isSome

/-- The numeric code of a fatal condition (rule R150). -/
def Fault.code : Fault → BitVec 3
  | .boundsViolation => 1
  | .stackExhaustion => 2
  | .stackUnderflow => 3
  | .unimplementedOpcode _ => 4

/-- The word a fatal condition records: that of an unimplemented opcode, else 0 (rules R150, R157). -/
def Fault.word : Fault → Word
  | .unimplementedOpcode w => w
  | .boundsViolation | .stackExhaustion | .stackUnderflow => 0

/-- The output `fault_code`, 0 when there is none (rule R22). -/
def faultCode (s : State) : BitVec 3 :=
  match s.fault with
  | some f => f.code
  | none => 0

/-- The output `fault_word`, 0 when there is none (rule R22). -/
def faultWord (s : State) : Word :=
  match s.fault with
  | some f => f.word
  | none => 0

end Sys2Proof.Machine
end

