-- ==== Sys2Proof/Machine/Cycle.lean ====
section
/-! DEFINITION. The instruction cycle `tick()` (`40_cycle.md`), the service of the host's commands
(`00_scope.md` rules R2, R3; `10_state.md` rule R21), and where the next instruction is placed. -/

namespace Sys2Proof.Machine

/-- Fetch: the word `[MEM[PC], MEM[PC+1]]`, big-endian, bounds-checked, before anything is executed
(rule R66; `20_memory.md` rules R32, R34). -/
def fetch (s : State) : Except Fault Word :=
  if inRange s.pc.toNat 2 then .ok (wordOfBytes (s.peek s.pc.toNat) (s.peek (s.pc.toNat + 1)))
  else .error .boundsViolation

/-- Dispatch: the one instruction a word selects, or an unimplemented opcode (rule R68). -/
def dispatch (w : Word) : Except Fault Instr :=
  match decodeWord w with
  | some i => .ok i
  | none => .error (.unimplementedOpcode w)

/-- `tick()`: nothing while FAULT is set (rule R65), else fetch, dispatch and the instruction, the
first fatal condition in that order being the one reported (rules R66 to R72). -/
def tick (s : State) : Outcome :=
  unlessFaulted s fun s =>
    attempt s (fetch s) fun w =>
      attempt s (dispatch w) fun i => exec i s

/-- The input port released after the tick it belongs to. -/
def releaseRnd : Outcome → Outcome
  | .next t => .next { t with rnd := none }
  | .fault f => .fault f
  | .refused r => .refused r

/-- One command of the host, atomically (`10_state.md` rule R21). -/
def perform (c : Command) (s : State) : Outcome :=
  match c with
  | .tick b => releaseRnd (tick { s with rnd := some b })
  | .tickTimers => unlessFaulted s tickTimers
  | .keypress index pressed => unlessFaulted s (keypress index pressed)
  | .load bytes => unlessFaulted s (load bytes)
  | .reset => .next (resetMachine s)
  | .none => .next { s with toneEvent := false }

/-- One step: the host's next command (`00_scope.md` rules R3, R6). It is the first one waiting; with none
waiting, none at all when the schedule has ended, a `tick()` when the host ticks for ever, else the next of a
free infinite sequence (log entry 5). -/
def serve (s : State) : Outcome :=
  match s.pending with
  | c :: rest => perform c { s with pending := rest }
  | [] =>
    match s.tail with
    | .ended => perform .none s
    | .ticking => tick s
    | .free => perform (Config.freeCommand s.served) { s with served := s.served + 1 }

/-- The same machine under another schedule. -/
def State.withSchedule (s : State) (commands : List Command) (tail : HostTail) (served : Nat) : State :=
  { s with pending := commands, tail := tail, served := served }

/-- A schedule of commands served one after another (`00_scope.md` rules R3, R4). -/
def runSchedule : List Command → State → Outcome
  | [], s => .next s
  | c :: cs, s =>
    match perform c s with
    | .next t => runSchedule cs t
    | .fault f => .fault f
    | .refused r => .refused r

/-- The host gives a further command (`00_scope.md` rule R2). -/
def State.issue (s : State) (c : Command) : State := { s with pending := s.pending ++ [c] }

/-- The two bytes of a word where the next step fetches: the host ticks, no fault is latched, and a
PC with no room for an instruction is moved to the entry point (log entry 10). -/
def placeWord (s : State) (w : Word) : State :=
  let a : Nat := if s.pc.toNat ≤ 4094 then s.pc.toNat else 0x200
  State.pokeBytes a [highByte w, lowByte w]
    { s with pc := BitVec.ofNat 16 a, pending := [], tail := .ticking, fault := none }

/-- `PC = a` and the word at a is `JP a`: the program has parked itself. The definition of "finished" that
`70_reset_and_hazards.md` rule R186 asks a model for; the hardware does not know it. -/
def State.parked (s : State) : Bool :=
  match fetch s with
  | .error _ => false
  | .ok w =>
    match decodeWord w with
    | some (.jp nnn) => addrWord nnn == s.pc
    | _ => false

end Sys2Proof.Machine
end

