-- ==== Sys2Proof/Machine/Step.lean ====
section
/-! DEFINITION. One step of the machine, and the placing of an instruction where it fetches. -/

namespace Sys2Proof.Machine

/-- One step: one command of the host, or one `tick()` (`Machine/Cycle.lean`). -/
def step (s : State) : Host.Outcome State Fault Refusal := serve s

/-- The state with the instruction of a word of the opcode table stored where `step` fetches next. -/
def State.withFetchWord (s : State) (nbits w : Nat) : State := placeWord s (tableWord nbits w)

end Sys2Proof.Machine
end

