-- ==== Sys2Proof/Safety.lean ====
section
/-! DEFINITION. What claims about the machine are said in: the instruction the next tick executes, what
a run must keep, and which registers an instruction may write. -/

namespace Sys2Proof.Machine

/-- A run is safe while no fatal condition has been reported (`60_exceptions.md` rule R150). -/
def State.safe (s : State) : Bool := s.fault.isNone

/-- The big-endian word at PC (`20_memory.md` rule R34). -/
def State.wordAtPc (s : State) : Word := wordOfBytes (s.peek s.pc.toNat) (s.peek (s.pc.toNat + 1))

/-- The instruction the next tick executes: none when the fetch leaves memory or the word is no
instruction (`40_cycle.md` rules R66, R68). -/
def State.nextInstr (s : State) : Option Instr :=
  if s.pc.toNat ≤ 4094 then decodeWord s.wordAtPc else none

/-- What every operation keeps: memory in its canonical form, PC in memory (`10_state.md` rule R13),
every held return address the `npc` of a `CALL` (`41_control_flow.md` rule R75), no tone signal from a
faulted machine (`60_exceptions.md` rule R158). -/
structure State.Inv (s : State) : Prop where
  memWf : Memory.wf s.cfg.font s.mem = true
  pcInMemory : s.pc.toNat ≤ 4095
  heldAddresses : ∀ k : Fin 16, k.val < s.sp.val → s.stack[k].toNat ≤ 4096
  faultQuiet : s.fault ≠ none → s.toneEvent = false

/-- t is s but for PC and the tone signal, which every tick writes (`10_state.md` rules R22, R24). -/
def State.sameButPc (s t : State) : Prop := { t with pc := s.pc, toneEvent := s.toneEvent } = s

/-- The byte at address a once `byte 0, byte 1, ...` stand in the `len` bytes from `start` up and every other
byte is as in s (`20_memory.md` rules R33, R42). -/
def State.afterStore (s : State) (start len : Nat) (byte : Nat → Byte) (a : Nat) : Byte :=
  if start ≤ a ∧ a < start + len then byte (a - start) else s.peek a

/-- The instructions that can leave PC elsewhere than 2 further (`40_cycle.md` rule R69). -/
def instrsWritingPc : List Op :=
  [.ret, .jp, .call, .jpV0, .seImm, .sneImm, .seReg, .sneReg, .skp, .sknp, .ldVxKey]

/-- The six skips (`40_cycle.md` rule R69). -/
def instrsSkipping : List Op := [.seImm, .sneImm, .seReg, .sneReg, .skp, .sknp]

/-- The six instructions that write VF as a side effect (`10_state.md` rule R11). -/
def instrWritesFlag : Instr → Bool
  | .addReg _ _ | .subReg _ _ | .subnReg _ _ | .shr _ | .shl _ | .drw _ _ _ => true
  | .cls | .ret | .jp _ | .call _ | .seImm _ _ | .sneImm _ _ | .seReg _ _ | .ldImm _ _ | .addImm _ _
  | .ldReg _ _ | .orReg _ _ | .andReg _ _ | .xorReg _ _ | .sneReg _ _ | .ldI _ | .jpV0 _ | .rnd _ _
  | .skp _ | .sknp _ | .ldVxDt _ | .ldVxKey _ | .ldDtVx _ | .ldStVx _ | .addI _ | .ldFont _ | .ldBcd _
  | .storeRegs _ | .loadRegs _ => false

/-- r is a register the instruction names as its destination: VX, or V0 to VX for `LD Vx,[I]`
(`10_state.md` rule R24, column V). -/
def instrHasDestination : Instr → Reg → Bool
  | .ldImm x _, r | .addImm x _, r | .ldReg x _, r | .orReg x _, r | .andReg x _, r | .xorReg x _, r
  | .addReg x _, r | .subReg x _, r | .subnReg x _, r | .shr x, r | .shl x, r | .rnd x _, r
  | .ldVxDt x, r | .ldVxKey x, r => r == x
  | .loadRegs x, r => decide (r.toNat ≤ x.toNat)
  | .cls, _ | .ret, _ | .jp _, _ | .call _, _ | .seImm _ _, _ | .sneImm _ _, _ | .seReg _ _, _
  | .sneReg _ _, _ | .ldI _, _ | .jpV0 _, _ | .drw _ _ _, _ | .skp _, _ | .sknp _, _ | .ldDtVx _, _
  | .ldStVx _, _ | .addI _, _ | .ldFont _, _ | .ldBcd _, _ | .storeRegs _, _ => false

end Sys2Proof.Machine
end

