-- ==== Sys2Proof/Certificates/Slice0/Obligations.lean ====
section
/-! DEFINITION. The statements for the provers. `A<n>` is a log entry of `notes/assumptions/`, D<n> a
decision the spec marks as its own (followed as its rule, A1). Every statement holds for every
configuration (A3) and, where a random byte is free, for every value of it (A4). That a fatal condition is
raised into a latch with nothing committed is D10 (A1, A6). -/

open Sys2Proof Sys2Proof.Machine

/-! ### Encoding -/

/-- Words written out from `30_encoding.md` rule R54 decode to the instruction they stand for, the
don't-care field of rule R56 included, and words of rule R55 to none. The numbers are D1 (A1). -/
def Obligations.SpecWordsDecode : Prop :=
  decodeWord 0x00EE#16 = some .ret ∧ decodeWord 0x1234#16 = some (.jp 0x234#12) ∧
  decodeWord 0x332A#16 = some (.seImm 3#4 0x2A#8) ∧ decodeWord 0x6A2B#16 = some (.ldImm 0xA#4 0x2B#8) ∧
  decodeWord 0x8127#16 = some (.subnReg 1#4 2#4) ∧ decodeWord 0x81F6#16 = some (.shr 1#4) ∧
  decodeWord 0xA2F0#16 = some (.ldI 0x2F0#12) ∧ decodeWord 0xD125#16 = some (.drw 1#4 2#4 5#4) ∧
  decodeWord 0xE29E#16 = some (.skp 2#4) ∧ decodeWord 0xF50A#16 = some (.ldVxKey 5#4) ∧
  decodeWord 0x0000#16 = none ∧ decodeWord 0x5121#16 = none ∧ decodeWord 0x8128#16 = none ∧
  decodeWord 0xE19F#16 = none ∧ decodeWord 0xF1FF#16 = none

/-- Decoding the bytes of a well-formed instruction, whatever follows them, gives it back: no bit of an
encoding is dropped (`30_encoding.md` rules R50, R51, R54; the numbers are D1, A1). -/
def Obligations.DecodeOfEncode : Prop :=
  ∀ (i : Instr) (rest : List Byte), i.wellFormed = true → decode (encode i ++ rest) = .ok (i, rest)

/-- A word that decodes is the word its instruction encodes to, but for the Y nibble of a shift, which
is ignored and emitted as 0 (rule R56, D7, A1). -/
def Obligations.EncodeOfDecode : Prop :=
  ∀ (w : Word) (i : Instr), decodeWord w = some i →
    encodeWord i = if i.op = .shr ∨ i.op = .shl then w &&& 0xFF0F#16 else w

/-- "A word `w` selects row r exactly when `(w & mask_r) == match_r`" (rule R54): the nibble dispatch is the
opcode table, so at most one row is selected and no row means none (rule R55; D1, D7, A1). -/
def Obligations.DecodeIsTheOpcodeTable : Prop :=
  ∀ (w : Word) (o : Op), (decodeWord w).map Instr.op = some o ↔ w &&& o.mask = o.pattern

/-- A written form stands for an instruction exactly when it has its format's operands and every number
fits its field, and it is then that instruction's written form: a number too wide is an error, never
truncated (rules R53, R58). -/
def Obligations.WrittenFormNeverTruncated : Prop :=
  (∀ i : Instr, i.source.instr = some i) ∧
  (∀ (src : Source) (i : Instr), src.instr = some i → i.source = src) ∧
  (∀ src : Source, src.wellFormed = true → ∃ i, src.instr = some i) ∧
  (∀ src : Source, src.wellFormed = false → src.instr = none)

/-! ### The cycle -/

/-- A step runs the decoded instruction (`40_cycle.md` rules R66, R68): `tick()` is exec of it, the command
`TICK(b)` is exec of it with b on the input port, the port released after; so is the step when the host ticks
for ever, and when `TICK(b)` waits. A step adds nothing else around exec. The schedule's form is A5. -/
def Obligations.StepRunsDecodedInstruction : Prop :=
  ∀ (s : State) (i : Instr), s.fault = none → s.pc.toNat ≤ 4094 → i.wellFormed = true →
    decode [s.peek s.pc.toNat, s.peek (s.pc.toNat + 1)] = .ok (i, []) →
    tick s = exec i s ∧
    (∀ b : Byte, perform (.tick b) s = releaseRnd (exec i { s with rnd := some b })) ∧
    (s.pending = [] → s.tail = .ticking → step s = exec i s) ∧
    (∀ (b : Byte) (rest : List Command), s.pending = .tick b :: rest →
      step s = releaseRnd (exec i { s with pending := rest, rnd := some b }))

/-- A tick whose fetch would leave memory reports a bounds violation and nothing else changes (rule R66;
`20_memory.md` rules R31, R32), whatever the byte there (rule R71). -/
def Obligations.FetchPastMemoryTraps : Prop :=
  ∀ s : State, s.fault = none → 4094 < s.pc.toNat → tick s = .next (s.latch .boundsViolation)

/-- `UnimplementedOpcode(w)` is raised by exactly the ticks whose word matches no row, it records w, and no
other command raises it (`60_exceptions.md` rule R154). -/
def Obligations.UnimplementedOpcodeExactly : Prop :=
  (∀ (s t : State) (w : Word), s.fault = none → tick s = .next t →
    (t.fault = some (.unimplementedOpcode w) ↔
      s.pc.toNat ≤ 4094 ∧ s.wordAtPc = w ∧ ∀ o : Op, w &&& o.mask ≠ o.pattern)) ∧
  (∀ (t : State) (w : Word), t.fault = some (.unimplementedOpcode w) → faultWord t = w) ∧
  (∀ (s t : State) (c : Command) (w : Word), s.fault = none → (∀ b, c ≠ .tick b) →
    perform c s = .next t → t.fault ≠ some (.unimplementedOpcode w))

/-- `StackExhaustion` is raised by `CALL` when SP = 16 and by nothing else (`60_exceptions.md` rule R152),
`StackUnderflow` by `RET` when SP = 0 and by nothing else (rule R153). -/
def Obligations.StackFaultsExactly : Prop :=
  (∀ s t : State, s.fault = none → tick s = .next t →
    (t.fault = some .stackExhaustion ↔ (∃ nnn, s.nextInstr = some (.call nnn)) ∧ s.sp.val = 16) ∧
    (t.fault = some .stackUnderflow ↔ s.nextInstr = some .ret ∧ s.sp.val = 0)) ∧
  (∀ (s t : State) (c : Command), s.fault = none → (∀ b, c ≠ .tick b) → perform c s = .next t →
    t.fault ≠ some .stackExhaustion ∧ t.fault ≠ some .stackUnderflow)

/-- Each instruction that uses I or a register as an index raises a bounds violation exactly out of
range, before anything is written, and never reduces the address (`60_exceptions.md` rule R151, lines
`DRW`, `LD B`, `LD [I]`, `LD Vx,[I]`, `SKP`, `SKNP`; D10, D12, D23, A1). -/
def Obligations.IndexOutOfRangeTraps : Prop :=
  (∀ (x y : Reg) (n : Nibble) (s : State), n.toNat ≠ 0 → 4095 < s.i.toNat + n.toNat - 1 →
    exec (.drw x y n) s = .next (s.latch .boundsViolation)) ∧
  (∀ (x : Reg) (s : State),
    (s.cfg.bcd = .fixed3 ∨ 100 ≤ (s.readV x).toNat) ∧ 4095 < s.i.toNat + 2 ∨
      10 ≤ (s.readV x).toNat ∧ 4095 < s.i.toNat + 1 ∨ 4095 < s.i.toNat →
    exec (.ldBcd x) s = .next (s.latch .boundsViolation)) ∧
  (∀ (x : Reg) (s : State), 4095 < s.i.toNat + x.toNat →
    exec (.storeRegs x) s = .next (s.latch .boundsViolation) ∧
    exec (.loadRegs x) s = .next (s.latch .boundsViolation)) ∧
  (∀ (x : Reg) (s : State), 15 < (s.readV x).toNat →
    exec (.skp x) s = .next (s.latch .boundsViolation) ∧
    exec (.sknp x) s = .next (s.latch .boundsViolation))

/-- "each non-branching instruction advances it by exactly 2 bytes" (`40_cycle.md` rule R69), and where that
would leave memory the tick reports a bounds violation and commits nothing (rule R70, D9, A1). -/
def Obligations.NonBranchingAdvancesByTwo : Prop :=
  ∀ (i : Instr) (s : State),
    i.op ∉ instrsWritingPc →
    (4095 < s.pc.toNat + 2 → exec i s = .next (s.latch .boundsViolation)) ∧
    (∀ t, s.fault = none → exec i s = .next t → t.fault = none → t.pc.toNat = s.pc.toNat + 2)

/-- An instruction either commits, with PC in memory, or latches one fatal condition and changes nothing
else, PC included: faults are precise (`20_memory.md` rule R41, `40_cycle.md` rules R70, R72, D9, D10, A1). -/
def Obligations.CommitOrPreciseFault : Prop :=
  ∀ (i : Instr) (s t : State), exec i s = .next t →
    (t.fault = s.fault ∧ t.pc.toNat ≤ 4095 ∧ t.toneEvent = false) ∨
      ∃ f, t = { s with fault := some f, toneEvent := false }

/-- A faulted machine: every command but reset changes nothing (`tone_event` is 0, the input port is
released), and reset clears it (`60_exceptions.md` rule R158, D19, A1). -/
def Obligations.FaultedMachineWaitsForReset : Prop :=
  ∀ s : State, s.fault ≠ none →
    tick s = .next { s with toneEvent := false } ∧
    (∀ b, perform (.tick b) s = .next { s with toneEvent := false, rnd := none }) ∧
    (∀ c : Command, c ≠ .reset → (∀ b, c ≠ .tick b) → perform c s = .next { s with toneEvent := false }) ∧
    (∃ t, perform .reset s = .next t ∧ t.fault = none ∧ t.pc = 0x200#16)

/-- Every step answers a next state: no instruction, command or fatal condition is without an effect, and a
tick never blocks (`40_cycle.md` rule R73). -/
def Obligations.EveryStepAnswersNext : Prop := ∀ s : State, ∃ t, step s = .next t

/-! ### Invariants and whole-machine rules -/

/-- Every step keeps the invariant: memory canonical, PC in memory, held return addresses at most 4096,
no tone signal from a faulted machine; for every command of the host and every instruction. -/
def Obligations.StepKeepsInv : Prop :=
  ∀ s t : State, s.Inv → step s = .next t → t.Inv

/-- The invariant holds right after reset, for every configuration. -/
def Obligations.ResetMeetsInv : Prop :=
  State.reset.Inv ∧ (∀ cfg : Config, (State.baseline cfg).Inv) ∧
  ∀ s t : State, perform .reset s = .next t → t.Inv

/-- What the source gives for the state after construction and after `reset()` from any state: PC, glyph
table, blank display (`10_state.md` section 6, the lines with a source); with the empty stack, which the
spec derives there, no tone signal, which it derives there too (the signal as the last step's result is A7),
and no fault recorded, which is its decision D10 (A1). -/
def Obligations.ResetGivenValues : Prop :=
  ∀ s t : State, t = State.baseline s.cfg ∨ perform .reset s = .next t →
    t.pc = 0x200#16 ∧ (∀ (a : Nat) (h : a < 80), t.peek a = s.cfg.font[a]) ∧
    (∀ idx, Display.cell t.display idx = false) ∧ t.sp.val = 0 ∧ t.fault = none ∧ t.toneEvent = false

/-- The reset values that are a choice, the spec's own D11 (log entry 2): V, I, stack, timers, keys and
memory from 0x050 up are 0. -/
def Obligations.ResetChosenValues : Prop :=
  ∀ s t : State, t = State.baseline s.cfg ∨ perform .reset s = .next t →
    (∀ r, t.readV r = 0#8) ∧ t.i = 0#16 ∧ (∀ k : Fin 16, t.stack[k] = 0#16) ∧ t.dt = 0#8 ∧ t.st = 0#8 ∧
    (∀ k : Fin 16, t.keys[k] = false) ∧ (∀ a, 0x50 ≤ a → t.peek a = 0#8)

/-- No step changes the configuration (`00_scope.md` rule R6; held in the state, A3). -/
def Obligations.ConfigurationIsFixed : Prop :=
  ∀ s t : State, step s = .next t → t.cfg = s.cfg

/-- Frame of the general registers, for all 34 instructions: a register changes only if the instruction
names it as its destination, or it is VF and the instruction is one of the six that write the flag; and
a flag written is 0 or 1 (`10_state.md` rules R11, R24). -/
def Obligations.RegisterFrame : Prop :=
  ∀ (i : Instr) (s t : State), exec i s = .next t →
    (∀ r, instrHasDestination i r = false → (r ≠ VF ∨ instrWritesFlag i = false) → t.readV r = s.readV r) ∧
    (instrWritesFlag i = true → s.fault = none → t.fault = none → t.readV VF = 0#8 ∨ t.readV VF = 1#8)

/-- Frame of everything else, for all 34 instructions. The columns of the access matrix (`10_state.md` rule
R24): each is written only by the instructions that have a `w` in it, and every byte of memory stands for
every instruction but `LD B` and `LD [I]`; PC is 2 further but for the instructions rule R69 of
`40_cycle.md` lists, at most 4 further after a skip, at most 2 further after `LD Vx,K`. FAULT is written
only by raising a fatal condition, which changes nothing else (D10, A1, A6), and the tone signal is 0
(A7). The last two lines are about the model's own fields, no columns of rule R24: the count of free random
bytes and the input port (A4), the configuration (A3), the host's schedule (A5), all DESIGN CHOICE. -/
def Obligations.AccessMatrixFrame : Prop :=
  ∀ (i : Instr) (s t : State), exec i s = .next t →
    (i.op ∉ [.ldI, .addI, .ldFont] → t.i = s.i) ∧
    (i.op ≠ .call → t.stack = s.stack) ∧
    (i.op ∉ [.call, .ret] → t.sp = s.sp) ∧
    (i.op ∉ [.ldBcd, .storeRegs] → t.mem = s.mem ∧ ∀ a, t.peek a = s.peek a) ∧
    (i.op ∉ [.cls, .drw] → t.display = s.display) ∧
    t.keys = s.keys ∧
    (i.op ≠ .ldDtVx → t.dt = s.dt) ∧
    (i.op ≠ .ldStVx → t.st = s.st) ∧
    ((∃ f, t = s.latch f) ∨
      t.fault = s.fault ∧
        (i.op ∉ instrsWritingPc → t.pc.toNat = s.pc.toNat + 2) ∧
        (i.op ∈ instrsSkipping → t.pc.toNat = s.pc.toNat + 2 ∨ t.pc.toNat = s.pc.toNat + 4) ∧
        (i.op = .ldVxKey → t.pc = s.pc ∨ t.pc.toNat = s.pc.toNat + 2)) ∧
    t.toneEvent = false ∧
    (i.op ≠ .rnd → t.draws = s.draws) ∧ t.rnd = s.rnd ∧ t.cfg = s.cfg ∧
    t.pending = s.pending ∧ t.tail = s.tail ∧ t.served = s.served

/-- Frame of the two storing instructions: every byte outside the bytes stored, at I upward, reads as
before (`20_memory.md` rule R33, `43_index_memory.md` rules R113, R114). -/
def Obligations.StoreFrame : Prop :=
  (∀ (x : Reg) (s t : State) (a : Nat), Memory.wf s.cfg.font s.mem = true → exec (.storeRegs x) s = .next t →
    (a < s.i.toNat ∨ s.i.toNat + x.toNat < a) → t.peek a = s.peek a) ∧
  (∀ (x : Reg) (s t : State) (a : Nat), Memory.wf s.cfg.font s.mem = true → exec (.ldBcd x) s = .next t →
    (a < s.i.toNat ∨ s.i.toNat + (bcdDigits s.cfg.bcd (s.readV x)).length ≤ a) → t.peek a = s.peek a)

/-- "ST cannot be read by any instruction" (`10_state.md` rule R18): two machines that differ only in ST
take steps that differ at most in ST. -/
def Obligations.SoundTimerUnreadable : Prop :=
  ∀ (i : Instr) (s t : State) (b : Byte), exec i s = .next t →
    ∃ u, exec i { s with st := b } = .next u ∧ { u with st := t.st } = t

/-! ### Control flow -/

/-- `RET` (`41_control_flow.md` rule R75): the popped address goes to PC and SP goes down by 1, nothing else
changes (the entry stays); an address past memory is a bounds violation (`40_cycle.md` rule R70, D9, A1);
an empty stack is `StackUnderflow`. Each is latched with nothing else changed (D10, A1, A6). -/
def Obligations.ReturnPops : Prop :=
  (∀ (s : State) (k : Nat) (hk : k < 16), s.sp.val = k + 1 → s.stack[k].toNat ≤ 4095 →
    ∃ t, exec .ret s = .next t ∧ t.pc = s.stack[k] ∧ t.sp.val = k ∧ s.sameButPc { t with sp := s.sp }) ∧
  (∀ (s : State) (k : Nat) (hk : k < 16), s.sp.val = k + 1 → 4095 < s.stack[k].toNat →
    exec .ret s = .next (s.latch .boundsViolation)) ∧
  (∀ s : State, s.sp.val = 0 → exec .ret s = .next (s.latch .stackUnderflow))

/-- `JP NNN` (rule R76): PC takes NNN, always, and nothing else changes. -/
def Obligations.JumpGoesToTarget : Prop :=
  ∀ (nnn : Addr) (s : State), ∃ t, exec (.jp nnn) s = .next t ∧ t.pc.toNat = nnn.toNat ∧ s.sameButPc t

/-- `CALL NNN` (rule R77): the address of the instruction after it goes to S[SP], the other entries stand,
SP goes up by 1, PC takes NNN, nothing else changes; with SP = 16 it is `StackExhaustion`,
latched with nothing else changed (D10, A1, A6). -/
def Obligations.CallPushes : Prop :=
  (∀ (nnn : Addr) (s : State) (h : s.sp.val < 16), s.pc.toNat ≤ 4095 →
    ∃ t, exec (.call nnn) s = .next t ∧ t.pc.toNat = nnn.toNat ∧
      t.sp.val = s.sp.val + 1 ∧ t.stack[s.sp.val].toNat = s.pc.toNat + 2 ∧
      (∀ (k : Nat) (hk : k < 16), k ≠ s.sp.val → t.stack[k] = s.stack[k]) ∧
      s.sameButPc { t with stack := s.stack, sp := s.sp }) ∧
  (∀ (nnn : Addr) (s : State), s.sp.val = 16 → exec (.call nnn) s = .next (s.latch .stackExhaustion))

/-- "Call then Return restores the exact pre-call PC" (`95_test_vectors.md` S3): a `CALL` to an address that
holds 00EE, then that `RET`, leave the machine at the instruction after the call with everything as it
was but the dead stack entry S[SP]: every other entry stands. It is two ticks, and the two steps of a
machine whose host ticks for ever (A5). -/
def Obligations.CallThenReturn : Prop :=
  ∀ (s : State) (nnn : Addr), s.fault = none → s.nextInstr = some (.call nnn) →
    s.sp.val < 16 → s.pc.toNat + 2 ≤ 4095 → nnn.toNat ≤ 4094 →
    s.peek nnn.toNat = 0x00#8 → s.peek (nnn.toNat + 1) = 0xEE#8 →
    ∃ t u, tick s = .next t ∧ t.pc.toNat = nnn.toNat ∧ tick t = .next u ∧ u.pc.toNat = s.pc.toNat + 2 ∧
      (∀ (k : Nat) (hk : k < 16), k ≠ s.sp.val → u.stack[k] = s.stack[k]) ∧
      s.sameButPc { u with stack := s.stack } ∧
      (s.pending = [] → s.tail = .ticking → step s = .next t ∧ step t = .next u)

/-- `SE Vx,NN` and `SNE Vx,NN` (rules R78, R79): 2 further exactly when equal, exactly when not equal, no
register written; where the PC would pass 4095 the same tick reports it and nothing changes (`40_cycle.md`
rule R70, D9, A1). -/
def Obligations.SkipOnImmediate : Prop :=
  ∀ (x : Reg) (nn : Byte) (s : State),
    (s.readV x = nn → s.pc.toNat + 4 ≤ 4095 →
      ∃ t, exec (.seImm x nn) s = .next t ∧ t.pc.toNat = s.pc.toNat + 4 ∧ s.sameButPc t) ∧
    (s.readV x ≠ nn → s.pc.toNat + 2 ≤ 4095 →
      ∃ t, exec (.seImm x nn) s = .next t ∧ t.pc.toNat = s.pc.toNat + 2 ∧ s.sameButPc t) ∧
    (s.readV x ≠ nn → s.pc.toNat + 4 ≤ 4095 →
      ∃ t, exec (.sneImm x nn) s = .next t ∧ t.pc.toNat = s.pc.toNat + 4 ∧ s.sameButPc t) ∧
    (s.readV x = nn → s.pc.toNat + 2 ≤ 4095 →
      ∃ t, exec (.sneImm x nn) s = .next t ∧ t.pc.toNat = s.pc.toNat + 2 ∧ s.sameButPc t) ∧
    (4095 < s.pc.toNat + 4 →
      (s.readV x = nn → exec (.seImm x nn) s = .next (s.latch .boundsViolation)) ∧
      (s.readV x ≠ nn → exec (.sneImm x nn) s = .next (s.latch .boundsViolation))) ∧
    (4095 < s.pc.toNat + 2 →
      exec (.seImm x nn) s = .next (s.latch .boundsViolation) ∧
      exec (.sneImm x nn) s = .next (s.latch .boundsViolation))

/-- `SE Vx,Vy` and `SNE Vx,Vy` (rules R80, R81), as the immediate forms (D9, A1). -/
def Obligations.SkipOnRegisters : Prop :=
  ∀ (x y : Reg) (s : State),
    (s.readV x = s.readV y → s.pc.toNat + 4 ≤ 4095 →
      ∃ t, exec (.seReg x y) s = .next t ∧ t.pc.toNat = s.pc.toNat + 4 ∧ s.sameButPc t) ∧
    (s.readV x ≠ s.readV y → s.pc.toNat + 2 ≤ 4095 →
      ∃ t, exec (.seReg x y) s = .next t ∧ t.pc.toNat = s.pc.toNat + 2 ∧ s.sameButPc t) ∧
    (s.readV x ≠ s.readV y → s.pc.toNat + 4 ≤ 4095 →
      ∃ t, exec (.sneReg x y) s = .next t ∧ t.pc.toNat = s.pc.toNat + 4 ∧ s.sameButPc t) ∧
    (s.readV x = s.readV y → s.pc.toNat + 2 ≤ 4095 →
      ∃ t, exec (.sneReg x y) s = .next t ∧ t.pc.toNat = s.pc.toNat + 2 ∧ s.sameButPc t) ∧
    (4095 < s.pc.toNat + 4 →
      (s.readV x = s.readV y → exec (.seReg x y) s = .next (s.latch .boundsViolation)) ∧
      (s.readV x ≠ s.readV y → exec (.sneReg x y) s = .next (s.latch .boundsViolation))) ∧
    (4095 < s.pc.toNat + 2 →
      exec (.seReg x y) s = .next (s.latch .boundsViolation) ∧
      exec (.sneReg x y) s = .next (s.latch .boundsViolation))

/-- `JP V0,NNN` (rule R82): PC takes V0 + NNN, V0 whatever the X nibble, nothing else changes; a sum past
4095 is not reduced: a bounds violation, nothing changed (`40_cycle.md` rule R70, D9, A1). -/
def Obligations.IndexedJump : Prop :=
  ∀ (nnn : Addr) (s : State),
    ((s.readV 0#4).toNat + nnn.toNat ≤ 4095 →
      ∃ t, exec (.jpV0 nnn) s = .next t ∧ t.pc.toNat = (s.readV 0#4).toNat + nnn.toNat ∧ s.sameButPc t) ∧
    (4095 < (s.readV 0#4).toNat + nnn.toNat → exec (.jpV0 nnn) s = .next (s.latch .boundsViolation))

/-! ### Register and ALU -/

/-- `LD Vx,NN` and `ADD Vx,NN` (`42_alu.md` rules R90, R91): the sum wraps, no flag is written, so VF stands
unless it is the destination; nothing but VX and PC changes. -/
def Obligations.ImmediateLoadAndAdd : Prop :=
  ∀ (x : Reg) (nn : Byte) (s : State), s.pc.toNat + 2 ≤ 4095 →
    (∃ t, exec (.ldImm x nn) s = .next t ∧ t.pc.toNat = s.pc.toNat + 2 ∧ s.sameButPc { t with v := s.v } ∧
      t.readV x = nn ∧ ∀ r, r ≠ x → t.readV r = s.readV r) ∧
    (∃ t, exec (.addImm x nn) s = .next t ∧ t.pc.toNat = s.pc.toNat + 2 ∧ s.sameButPc { t with v := s.v } ∧
      (t.readV x).toNat = ((s.readV x).toNat + nn.toNat) % 256 ∧ ∀ r, r ≠ x → t.readV r = s.readV r)

/-- `LD Vx,Vy`, `OR`, `AND`, `XOR` (rules R92 to R95): bit by bit of the old operands, "no flag side
effects"; nothing but VX and PC changes. -/
def Obligations.CopyAndLogic : Prop :=
  ∀ (x y : Reg) (s : State), s.pc.toNat + 2 ≤ 4095 →
    (∃ t, exec (.ldReg x y) s = .next t ∧ t.pc.toNat = s.pc.toNat + 2 ∧ s.sameButPc { t with v := s.v } ∧
      t.readV x = s.readV y ∧ ∀ r, r ≠ x → t.readV r = s.readV r) ∧
    (∃ t, exec (.orReg x y) s = .next t ∧ t.pc.toNat = s.pc.toNat + 2 ∧ s.sameButPc { t with v := s.v } ∧
      (∀ k, k < 8 → (t.readV x).getLsbD k = ((s.readV x).getLsbD k || (s.readV y).getLsbD k)) ∧
      ∀ r, r ≠ x → t.readV r = s.readV r) ∧
    (∃ t, exec (.andReg x y) s = .next t ∧ t.pc.toNat = s.pc.toNat + 2 ∧ s.sameButPc { t with v := s.v } ∧
      (∀ k, k < 8 → (t.readV x).getLsbD k = ((s.readV x).getLsbD k && (s.readV y).getLsbD k)) ∧
      ∀ r, r ≠ x → t.readV r = s.readV r) ∧
    (∃ t, exec (.xorReg x y) s = .next t ∧ t.pc.toNat = s.pc.toNat + 2 ∧ s.sameButPc { t with v := s.v } ∧
      (∀ k, k < 8 → (t.readV x).getLsbD k = ((s.readV x).getLsbD k != (s.readV y).getLsbD k)) ∧
      ∀ r, r ≠ x → t.readV r = s.readV r)

/-- `ADD Vx,Vy` (rule R96): VX takes the sum modulo 256 of the old operands, then VF the carry, so with
X = 15 the carry is what remains. -/
def Obligations.AddSetsCarry : Prop :=
  ∀ (x y : Reg) (s : State), s.pc.toNat + 2 ≤ 4095 →
    ∃ t, exec (.addReg x y) s = .next t ∧ t.fault = s.fault ∧ t.pc.toNat = s.pc.toNat + 2 ∧
      (x ≠ VF → (t.readV x).toNat = ((s.readV x).toNat + (s.readV y).toNat) % 256) ∧
      (t.readV VF).toNat = (if 255 < (s.readV x).toNat + (s.readV y).toNat then 1 else 0) ∧
      ∀ r, r ≠ x → r ≠ VF → t.readV r = s.readV r

/-- `SUB Vx,Vy` and `SUBN Vx,Vy` (rules R97, R99): the difference modulo 256 of the old operands, then VF is
1 when no borrow occurred and 0 otherwise. -/
def Obligations.SubtractSetsNoBorrow : Prop :=
  ∀ (x y : Reg) (s : State), s.pc.toNat + 2 ≤ 4095 →
    (∃ t, exec (.subReg x y) s = .next t ∧ t.fault = s.fault ∧ t.pc.toNat = s.pc.toNat + 2 ∧
      (x ≠ VF → (t.readV x).toNat = ((s.readV x).toNat + 256 - (s.readV y).toNat) % 256) ∧
      (t.readV VF).toNat = (if (s.readV x).toNat < (s.readV y).toNat then 0 else 1) ∧
      ∀ r, r ≠ x → r ≠ VF → t.readV r = s.readV r) ∧
    (∃ t, exec (.subnReg x y) s = .next t ∧ t.fault = s.fault ∧ t.pc.toNat = s.pc.toNat + 2 ∧
      (x ≠ VF → (t.readV x).toNat = ((s.readV y).toNat + 256 - (s.readV x).toNat) % 256) ∧
      (t.readV VF).toNat = (if (s.readV y).toNat < (s.readV x).toNat then 0 else 1) ∧
      ∀ r, r ≠ x → r ≠ VF → t.readV r = s.readV r)

/-- `SHR Vx` and `SHL Vx` (rules R98, R100): VX shifted in place by one, then VF the bit dropped: old bit 0,
old bit 7. -/
def Obligations.ShiftsDropIntoVF : Prop :=
  ∀ (x : Reg) (s : State), s.pc.toNat + 2 ≤ 4095 →
    (∃ t, exec (.shr x) s = .next t ∧ t.fault = s.fault ∧ t.pc.toNat = s.pc.toNat + 2 ∧
      (x ≠ VF → (t.readV x).toNat = (s.readV x).toNat / 2) ∧
      (t.readV VF).toNat = (s.readV x).toNat % 2 ∧ ∀ r, r ≠ x → r ≠ VF → t.readV r = s.readV r) ∧
    (∃ t, exec (.shl x) s = .next t ∧ t.fault = s.fault ∧ t.pc.toNat = s.pc.toNat + 2 ∧
      (x ≠ VF → (t.readV x).toNat = 2 * (s.readV x).toNat % 256) ∧
      (t.readV VF).toNat = (s.readV x).toNat / 128 ∧ ∀ r, r ≠ x → r ≠ VF → t.readV r = s.readV r)

/-- `RND Vx,NN` (rule R101, D17, A1): the random byte ANDed with NN, so no bit that NN lacks; the byte is the
one the host presents, else a free value, and the model counts the draw (log entry 4). -/
def Obligations.RandomIsMasked : Prop :=
  ∀ (x : Reg) (nn : Byte) (s : State), s.pc.toNat + 2 ≤ 4095 →
    ∃ t, exec (.rnd x nn) s = .next t ∧ t.fault = s.fault ∧ t.pc.toNat = s.pc.toNat + 2 ∧
      (∀ b, s.rnd = some b → t.readV x = b &&& nn) ∧
      (s.rnd = none → t.readV x = Config.freeRnd s.draws &&& nn) ∧
      (∀ k, nn.getLsbD k = false → (t.readV x).getLsbD k = false) ∧
      (∀ r, r ≠ x → t.readV r = s.readV r) ∧ t.draws = s.draws + 1

/-! ### Index register and memory -/

/-- `LD I,NNN` (`43_index_memory.md` rule R110) and `LD F,Vx` (rule R112): I takes NNN, I takes 5 times VX for
a digit 0 to 15, nothing else but PC changes; a value above 15 is a bounds violation, latched with nothing
else changed (D10, A1, A6). -/
def Obligations.IndexLoads : Prop :=
  (∀ (nnn : Addr) (s : State), s.pc.toNat + 2 ≤ 4095 →
    ∃ t, exec (.ldI nnn) s = .next t ∧ t.pc.toNat = s.pc.toNat + 2 ∧ t.i.toNat = nnn.toNat ∧
      s.sameButPc { t with i := s.i }) ∧
  (∀ (x : Reg) (s : State), s.pc.toNat + 2 ≤ 4095 → (s.readV x).toNat ≤ 15 →
    ∃ t, exec (.ldFont x) s = .next t ∧ t.pc.toNat = s.pc.toNat + 2 ∧ t.i.toNat = 5 * (s.readV x).toNat ∧
      s.sameButPc { t with i := s.i }) ∧
  (∀ (x : Reg) (s : State), 15 < (s.readV x).toNat → exec (.ldFont x) s = .next (s.latch .boundsViolation))

/-- `ADD I,Vx` (rule R111): I + VX modulo 65536 (D13, A1); no fault past 4095, ST not written. -/
def Obligations.AddToIndex : Prop :=
  ∀ (x : Reg) (s : State), s.pc.toNat + 2 ≤ 4095 →
    ∃ t, exec (.addI x) s = .next t ∧ t.fault = s.fault ∧ t.pc.toNat = s.pc.toNat + 2 ∧
      t.i.toNat = (s.i.toNat + (s.readV x).toNat) % 65536 ∧ t.v = s.v ∧ t.st = s.st

/-- `LD B,Vx` (rule R113): the decimal digits of VX from I up, leading zeros omitted in
`variable_length`, always three in `fixed3` (D5, A1); only the addresses written are checked. -/
def Obligations.BcdStoresDigits : Prop :=
  ∀ (x : Reg) (s : State), s.pc.toNat + 2 ≤ 4095 → Memory.wf s.cfg.font s.mem = true →
    ((s.cfg.bcd = .fixed3 ∨ 100 ≤ (s.readV x).toNat) → s.i.toNat + 2 ≤ 4095 →
      ∃ t, exec (.ldBcd x) s = .next t ∧ t.fault = s.fault ∧ t.pc.toNat = s.pc.toNat + 2 ∧
        (t.peek s.i.toNat).toNat = (s.readV x).toNat / 100 ∧
        (t.peek (s.i.toNat + 1)).toNat = (s.readV x).toNat / 10 % 10 ∧
        (t.peek (s.i.toNat + 2)).toNat = (s.readV x).toNat % 10 ∧
        ∀ a, (a < s.i.toNat ∨ s.i.toNat + 2 < a) → t.peek a = s.peek a) ∧
    (s.cfg.bcd = .variableLength → 10 ≤ (s.readV x).toNat → (s.readV x).toNat < 100 → s.i.toNat + 1 ≤ 4095 →
      ∃ t, exec (.ldBcd x) s = .next t ∧ t.fault = s.fault ∧ t.pc.toNat = s.pc.toNat + 2 ∧
        (t.peek s.i.toNat).toNat = (s.readV x).toNat / 10 ∧
        (t.peek (s.i.toNat + 1)).toNat = (s.readV x).toNat % 10 ∧
        ∀ a, (a < s.i.toNat ∨ s.i.toNat + 1 < a) → t.peek a = s.peek a) ∧
    (s.cfg.bcd = .variableLength → (s.readV x).toNat < 10 → s.i.toNat ≤ 4095 →
      ∃ t, exec (.ldBcd x) s = .next t ∧ t.fault = s.fault ∧ t.pc.toNat = s.pc.toNat + 2 ∧
        (t.peek s.i.toNat).toNat = (s.readV x).toNat ∧
        ∀ a, a ≠ s.i.toNat → t.peek a = s.peek a)

/-- `LD [I],Vx` (rule R114): V0 to VX go to I to I+X, the other bytes stand, I is not changed (D13, A1). -/
def Obligations.StoreRegistersAtI : Prop :=
  ∀ (x : Reg) (s : State), s.pc.toNat + 2 ≤ 4095 → Memory.wf s.cfg.font s.mem = true →
    s.i.toNat + x.toNat ≤ 4095 →
    ∃ t, exec (.storeRegs x) s = .next t ∧ t.fault = s.fault ∧ t.pc.toNat = s.pc.toNat + 2 ∧ t.i = s.i ∧
      (∀ r : Reg, r.toNat ≤ x.toNat → t.peek (s.i.toNat + r.toNat) = s.readV r) ∧
      (∀ a, (a < s.i.toNat ∨ s.i.toNat + x.toNat < a) → t.peek a = s.peek a)

/-- `LD Vx,[I]` (rule R115): V0 to VX come from I to I+X, the registers above X stand, I is not changed
(D13, A1). -/
def Obligations.LoadRegistersFromI : Prop :=
  ∀ (x : Reg) (s : State), s.pc.toNat + 2 ≤ 4095 → s.i.toNat + x.toNat ≤ 4095 →
    ∃ t, exec (.loadRegs x) s = .next t ∧ t.fault = s.fault ∧ t.pc.toNat = s.pc.toNat + 2 ∧ t.i = s.i ∧
      (∀ r : Reg, r.toNat ≤ x.toNat → t.readV r = s.peek (s.i.toNat + r.toNat)) ∧
      (∀ r : Reg, x.toNat < r.toNat → t.readV r = s.readV r)

/-- Fetch is coherent with stores (`20_memory.md` rule R44): after `LD [I],Vx` and after `LD B,Vx`, wherever I
is, the fetch of the very next tick reads the bytes just stored, and the bytes that stood where nothing
was stored; the tick runs the instruction that word is. With I at the next instruction and X at least 1
that word is V0, V1. -/
def Obligations.FetchSeesStores : Prop :=
  (∀ (x : Reg) (s : State), Memory.wf s.cfg.font s.mem = true → s.pc.toNat + 3 ≤ 4095 →
    s.i.toNat + x.toNat ≤ 4095 →
    ∃ t w, exec (.storeRegs x) s = .next t ∧ t.fault = s.fault ∧ fetch t = .ok w ∧
      (∀ stored : Nat → Byte,
        stored = s.afterStore s.i.toNat (x.toNat + 1) (fun k => s.readV (BitVec.ofNat 4 k)) →
        w = wordOfBytes (stored (s.pc.toNat + 2)) (stored (s.pc.toNat + 3))) ∧
      (s.i.toNat = s.pc.toNat + 2 → 1 ≤ x.toNat → w = wordOfBytes (s.readV 0#4) (s.readV 1#4)) ∧
      (∀ i, s.fault = none → decodeWord w = some i → tick t = exec i t)) ∧
  (∀ (x : Reg) (s : State), Memory.wf s.cfg.font s.mem = true → s.pc.toNat + 3 ≤ 4095 →
    s.i.toNat + (bcdDigits s.cfg.bcd (s.readV x)).length ≤ 4096 →
    ∃ t w, exec (.ldBcd x) s = .next t ∧ t.fault = s.fault ∧ fetch t = .ok w ∧
      (∀ stored : Nat → Byte,
        stored = s.afterStore s.i.toNat (bcdDigits s.cfg.bcd (s.readV x)).length
          (fun k => (bcdDigits s.cfg.bcd (s.readV x)).getD k 0#8) →
        w = wordOfBytes (stored (s.pc.toNat + 2)) (stored (s.pc.toNat + 3))) ∧
      (∀ i, s.fault = none → decodeWord w = some i → tick t = exec i t))

/-! ### Display -/

/-- `CLS` (`44_display.md` rule R125): every cell `get_display()` shows is false, VF not written, nothing else but PC changes. -/
def Obligations.ClearScreen : Prop :=
  ∀ s : State, s.pc.toNat + 2 ≤ 4095 →
    ∃ t, exec .cls s = .next t ∧ t.pc.toNat = s.pc.toNat + 2 ∧
      (∀ idx, Display.cell (getDisplay t) idx = false) ∧ s.sameButPc { t with display := s.display }

/-- `DRW` with `xor_collision` (rules R126, R127; D4, D20, D21, A1): each of the 8N pixels, both coordinates
wrapped, toggles its cell when its bit is 1; the other cells stand; VF is 1 exactly when a set cell was
turned off, else 0. The coordinates are the old VX and VY also when X or Y is 15. -/
def Obligations.DrawTogglesAndReportsCollision : Prop :=
  ∀ (x y : Reg) (n : Nibble) (s : State), s.cfg.draw = .xorCollision → s.pc.toNat + 2 ≤ 4095 →
    (n.toNat = 0 ∨ s.i.toNat + n.toNat - 1 ≤ 4095) →
    ∃ t, exec (.drw x y n) s = .next t ∧ t.fault = s.fault ∧ t.pc.toNat = s.pc.toNat + 2 ∧
      (∀ r c, r < n.toNat → c < 8 →
        Display.cell t.display (((s.readV y).toNat + r) % 32 * 64 + ((s.readV x).toNat + c) % 64) =
          (Display.cell s.display (((s.readV y).toNat + r) % 32 * 64 + ((s.readV x).toNat + c) % 64) !=
            (s.peek (s.i.toNat + r)).getLsbD (7 - c))) ∧
      (∀ idx, (∀ r c, r < n.toNat → c < 8 →
          ((s.readV y).toNat + r) % 32 * 64 + ((s.readV x).toNat + c) % 64 ≠ idx) →
        Display.cell t.display idx = Display.cell s.display idx) ∧
      (t.readV VF = 1#8 ↔ ∃ r c, r < n.toNat ∧ c < 8 ∧ (s.peek (s.i.toNat + r)).getLsbD (7 - c) = true ∧
        Display.cell s.display (((s.readV y).toNat + r) % 32 * 64 + ((s.readV x).toNat + c) % 64) = true) ∧
      (t.readV VF = 0#8 ∨ t.readV VF = 1#8) ∧
      ∀ r, r ≠ VF → t.readV r = s.readV r

/-- `DRW` with `source_overwrite` (rules R126, R127; D4, D20, D21, A1): each of the 8N cells takes its sprite
bit, the other cells stand, VF ends 0. -/
def Obligations.DrawOverwrites : Prop :=
  ∀ (x y : Reg) (n : Nibble) (s : State), s.cfg.draw = .sourceOverwrite → s.pc.toNat + 2 ≤ 4095 →
    (n.toNat = 0 ∨ s.i.toNat + n.toNat - 1 ≤ 4095) →
    ∃ t, exec (.drw x y n) s = .next t ∧ t.fault = s.fault ∧ t.pc.toNat = s.pc.toNat + 2 ∧
      (∀ r c, r < n.toNat → c < 8 →
        Display.cell t.display (((s.readV y).toNat + r) % 32 * 64 + ((s.readV x).toNat + c) % 64) =
          (s.peek (s.i.toNat + r)).getLsbD (7 - c)) ∧
      (∀ idx, (∀ r c, r < n.toNat → c < 8 →
          ((s.readV y).toNat + r) % 32 * 64 + ((s.readV x).toNat + c) % 64 ≠ idx) →
        Display.cell t.display idx = Display.cell s.display idx) ∧
      t.readV VF = 0#8 ∧ ∀ r, r ≠ VF → t.readV r = s.readV r

/-- "In `xor_collision`, drawing the same sprite twice at the same place restores the display and the second
draw sets VF = 1 if the sprite has any 1 bit that was lit by the first" (rule R126; D4, D20, A1). X and Y
are not VF, so that the second draw is at the same place. -/
def Obligations.DrawTwiceRestoresDisplay : Prop :=
  ∀ (x y : Reg) (n : Nibble) (s : State), s.cfg.draw = .xorCollision → x ≠ VF → y ≠ VF →
    s.pc.toNat + 4 ≤ 4095 → (n.toNat = 0 ∨ s.i.toNat + n.toNat - 1 ≤ 4095) →
    ∃ t u, exec (.drw x y n) s = .next t ∧ exec (.drw x y n) t = .next u ∧ u.fault = s.fault ∧
      u.display = s.display ∧
      (u.readV VF = 1#8 ↔ ∃ r c, r < n.toNat ∧ c < 8 ∧ (s.peek (s.i.toNat + r)).getLsbD (7 - c) = true ∧
        Display.cell s.display (((s.readV y).toNat + r) % 32 * 64 + ((s.readV x).toNat + c) % 64) = false)

/-! ### Keypad and timers -/

/-- `SKP Vx` and `SKNP Vx` (`45_keypad_timers.md` rules R135, R136) for a key number 0 to 15: 2 further
exactly when the key is down, exactly when it is not; no register written; past 4095 as the other skips
(`40_cycle.md` rule R70, D9, A1). -/
def Obligations.SkipOnKey : Prop :=
  ∀ (x : Reg) (s : State) (k : Fin 16), (s.readV x).toNat = k.val →
    (s.keys[k] = true → s.pc.toNat + 4 ≤ 4095 →
      ∃ t, exec (.skp x) s = .next t ∧ t.pc.toNat = s.pc.toNat + 4 ∧ s.sameButPc t) ∧
    (s.keys[k] = false → s.pc.toNat + 2 ≤ 4095 →
      ∃ t, exec (.skp x) s = .next t ∧ t.pc.toNat = s.pc.toNat + 2 ∧ s.sameButPc t) ∧
    (s.keys[k] = false → s.pc.toNat + 4 ≤ 4095 →
      ∃ t, exec (.sknp x) s = .next t ∧ t.pc.toNat = s.pc.toNat + 4 ∧ s.sameButPc t) ∧
    (s.keys[k] = true → s.pc.toNat + 2 ≤ 4095 →
      ∃ t, exec (.sknp x) s = .next t ∧ t.pc.toNat = s.pc.toNat + 2 ∧ s.sameButPc t) ∧
    (4095 < s.pc.toNat + 4 →
      (s.keys[k] = true → exec (.skp x) s = .next (s.latch .boundsViolation)) ∧
      (s.keys[k] = false → exec (.sknp x) s = .next (s.latch .boundsViolation))) ∧
    (4095 < s.pc.toNat + 2 →
      exec (.skp x) s = .next (s.latch .boundsViolation) ∧
      exec (.sknp x) s = .next (s.latch .boundsViolation))

/-- `LD Vx,K` (rule R138): with no key down the state stays as it was, PC at the instruction itself; with
keys down VX takes the highest one and execution proceeds, or traps when that leaves memory (`40_cycle.md`
rule R70, D9, A1). -/
def Obligations.WaitForKey : Prop :=
  (∀ (x : Reg) (s : State), s.pc.toNat ≤ 4095 → (∀ k : Fin 16, s.keys[k] = false) →
    ∃ t, exec (.ldVxKey x) s = .next t ∧ { t with toneEvent := s.toneEvent } = s) ∧
  (∀ (x : Reg) (s : State) (k : Fin 16), s.keys[k] = true → (∀ j : Fin 16, k < j → s.keys[j] = false) →
    (s.pc.toNat + 2 ≤ 4095 →
      ∃ t, exec (.ldVxKey x) s = .next t ∧ t.pc.toNat = s.pc.toNat + 2 ∧ (t.readV x).toNat = k.val ∧
        (∀ r, r ≠ x → t.readV r = s.readV r) ∧ s.sameButPc { t with v := s.v }) ∧
    (4095 < s.pc.toNat + 2 → exec (.ldVxKey x) s = .next (s.latch .boundsViolation)))

/-- `LD Vx,DT`, `LD DT,Vx`, `LD ST,Vx` (rules R137, R139, R140): "direct read/write between VX and the
respective timer"; nothing else but PC changes, and none raises a signal (`10_state.md` rule R22, A7). -/
def Obligations.TimerAccess : Prop :=
  ∀ (x : Reg) (s : State), s.pc.toNat + 2 ≤ 4095 →
    (∃ t, exec (.ldVxDt x) s = .next t ∧ t.pc.toNat = s.pc.toNat + 2 ∧ s.sameButPc { t with v := s.v } ∧
      t.readV x = s.dt ∧ (∀ r, r ≠ x → t.readV r = s.readV r) ∧ t.toneEvent = false) ∧
    (∃ t, exec (.ldDtVx x) s = .next t ∧ t.pc.toNat = s.pc.toNat + 2 ∧ t.dt = s.readV x ∧
      s.sameButPc { t with dt := s.dt } ∧ t.toneEvent = false) ∧
    (∃ t, exec (.ldStVx x) s = .next t ∧ t.pc.toNat = s.pc.toNat + 2 ∧ t.st = s.readV x ∧
      s.sameButPc { t with st := s.st } ∧ t.toneEvent = false)

/-! ### The host's operations -/

/-- `tick_timers()` (`60_exceptions.md` rules R161 to R163): each timer down by 1, saturating at 0,
independently; `tone_event` exactly when ST was 1; nothing else changes. And `tone_event` is 0 after every
command other than `TICK_TIMERS`, in every state (`10_state.md` rule R22, A7). -/
def Obligations.TimersCountDown : Prop :=
  (∀ s : State, s.fault = none →
    ∃ t, perform .tickTimers s = .next t ∧ t.dt.toNat = s.dt.toNat - 1 ∧ t.st.toNat = s.st.toNat - 1 ∧
      (t.toneEvent = true ↔ s.st = 1#8) ∧
      { t with dt := s.dt, st := s.st, toneEvent := s.toneEvent } = s) ∧
  (∀ (s t : State) (c : Command), c ≠ .tickTimers → perform c s = .next t → t.toneEvent = false)

/-- `keypress(index, pressed)` (rule R164): sets one key flag, the other 15 keep their values; nothing while
FAULT is set (rule R158, D19, A1); and it is the only writer of the flags besides reset, among all commands
of the host. -/
def Obligations.KeypressSetsOneFlag : Prop :=
  (∀ (s : State) (k : Nibble) (p : Bool),
    (s.fault = none → ∃ t, perform (.keypress k p) s = .next t ∧
      (∀ (j : Nat) (hj : j < 16), t.keys[j] = if j = k.toNat then p else s.keys[j]) ∧
      { t with keys := s.keys, toneEvent := s.toneEvent } = s) ∧
    (s.fault ≠ none → ∃ t, perform (.keypress k p) s = .next t ∧ { t with toneEvent := s.toneEvent } = s)) ∧
  (∀ (s t : State) (c : Command), (∀ k p, c ≠ .keypress k p) → c ≠ .reset → perform c s = .next t →
    t.keys = s.keys)

/-- `load(bytes)` (`70_reset_and_hazards.md` rule R182): memory at 0x200 up is exactly the bytes, nothing
else changes; an image that does not fit is a bounds violation and nothing is copied (D18, A1). -/
def Obligations.LoadCopiesImage : Prop :=
  ∀ (s : State) (bytes : List Byte), s.fault = none → Memory.wf s.cfg.font s.mem = true →
    (bytes.length ≤ 3584 → ∃ t, perform (.load bytes) s = .next t ∧
      (∀ (k : Nat) (hk : k < bytes.length), t.peek (0x200 + k) = bytes[k]) ∧
      (∀ a, (a < 0x200 ∨ 0x200 + bytes.length ≤ a) → t.peek a = s.peek a) ∧
      { t with mem := s.mem, toneEvent := s.toneEvent } = s) ∧
    (3584 < bytes.length → perform (.load bytes) s = .next (s.latch .boundsViolation))

/-- A parked machine, PC at a `JP` to itself, is a fixed point of `tick()` (rule R186), and so of the step when
the host ticks for ever (A5). -/
def Obligations.ParkedIsFixedPoint : Prop :=
  ∀ s : State, s.parked = true → s.fault = none →
    ∃ t, tick s = .next t ∧ { t with toneEvent := s.toneEvent } = s ∧ t.parked = true ∧
      (s.pending = [] → s.tail = .ticking → step s = .next t)

/-- The schedule is "any finite or infinite sequence of the operations" (`00_scope.md` rule R6; R3, R4, D22,
A1): the machine serves its schedule one command a step, in order, and ends as performing the commands one
after another does. First a finite one, whatever comes after it; then an infinite one, as far as one looks,
of which nothing is known (`Config.freeCommand` has no body, so this is every infinite sequence); then a host
that ticks for ever; and a schedule that has ended changes nothing more, the tone signal is 0 (A7). The
schedule's form is the model's (A5). -/
def Obligations.ScheduleServedInOrder : Prop :=
  (∀ (cs : List Command) (tail : HostTail) (n : Nat) (s : State),
    Sys2Proof.core.run cs.length (s.withSchedule cs tail n) = runSchedule cs (s.withSchedule [] tail n)) ∧
  (∀ (k n : Nat) (s : State),
    Sys2Proof.core.run k (s.withSchedule [] .free n) =
      runSchedule ((List.range k).map fun j => Config.freeCommand (n + j)) (s.withSchedule [] .free (n + k))) ∧
  (∀ (n : Nat) (s : State), step (s.withSchedule [] .ticking n) = tick (s.withSchedule [] .ticking n)) ∧
  (∀ (k n : Nat) (s : State), Sys2Proof.core.run (k + 1) (s.withSchedule [] .ended n) =
    .next { s.withSchedule [] .ended n with toneEvent := false })

/-- The word of an opcode-table row placed where the machine fetches next is the instruction the very next
step runs, from every state (log entry 10; `40_cycle.md` rules R66, R68). -/
def Obligations.PlacedWordRunsNext : Prop :=
  ∀ (s : State) (w : Nat) (i : Instr), Memory.wf s.cfg.font s.mem = true → decodeTableWord 16 w = some i →
    step (s.withFetchWord 16 w) = exec i (s.withFetchWord 16 w)

/-! ### The outputs -/

/-- The outputs of the exception state (`10_state.md` rule R22, `60_exceptions.md` rules R150, R157): none
shows as 0 in all three; each fatal condition shows `fault_valid`, its code 1 to 4, and on `fault_word` the
word of an unimplemented opcode and 0 for the other three. Every command but reset leaves what they show of a
fault as it is, and reset clears it (rule R158, D19). The codes and the latch are D10 (A1, A6). -/
def Obligations.FaultOutputsShowTheLatch : Prop :=
  (∀ s : State, s.fault = none → faultValid s = false ∧ faultCode s = 0#3 ∧ faultWord s = 0#16) ∧
  (∀ s : State, s.fault = some .boundsViolation →
    faultValid s = true ∧ faultCode s = 1#3 ∧ faultWord s = 0#16) ∧
  (∀ s : State, s.fault = some .stackExhaustion →
    faultValid s = true ∧ faultCode s = 2#3 ∧ faultWord s = 0#16) ∧
  (∀ s : State, s.fault = some .stackUnderflow →
    faultValid s = true ∧ faultCode s = 3#3 ∧ faultWord s = 0#16) ∧
  (∀ (s : State) (w : Word), s.fault = some (.unimplementedOpcode w) →
    faultValid s = true ∧ faultCode s = 4#3 ∧ faultWord s = w) ∧
  (∀ (s : State) (c : Command), faultValid s = true → c ≠ .reset →
    ∃ t, perform c s = .next t ∧ faultValid t = true ∧ faultCode t = faultCode s ∧
      faultWord t = faultWord s) ∧
  (∀ s : State, ∃ t, perform .reset s = .next t ∧ faultValid t = false)
end

