-- ==== Sys2Proof/Laws/State.lean ====
section
/-! SUPPORT. One lemma per field per named update of the state, each true by unfolding, so that no later
proof unfolds a record update; and the same for the recursive updates. -/

namespace Sys2Proof.Machine

@[simp] theorem State.writeV_i (s : State) (x : Reg) (b : Byte) : (s.writeV x b).i = s.i := rfl
@[simp] theorem State.writeV_pc (s : State) (x : Reg) (b : Byte) : (s.writeV x b).pc = s.pc := rfl
@[simp] theorem State.writeV_stack (s : State) (x : Reg) (b : Byte) : (s.writeV x b).stack = s.stack := rfl
@[simp] theorem State.writeV_sp (s : State) (x : Reg) (b : Byte) : (s.writeV x b).sp = s.sp := rfl
@[simp] theorem State.writeV_dt (s : State) (x : Reg) (b : Byte) : (s.writeV x b).dt = s.dt := rfl
@[simp] theorem State.writeV_st (s : State) (x : Reg) (b : Byte) : (s.writeV x b).st = s.st := rfl
@[simp] theorem State.writeV_mem (s : State) (x : Reg) (b : Byte) : (s.writeV x b).mem = s.mem := rfl
@[simp] theorem State.writeV_display (s : State) (x : Reg) (b : Byte) : (s.writeV x b).display = s.display := rfl
@[simp] theorem State.writeV_keys (s : State) (x : Reg) (b : Byte) : (s.writeV x b).keys = s.keys := rfl
@[simp] theorem State.writeV_fault (s : State) (x : Reg) (b : Byte) : (s.writeV x b).fault = s.fault := rfl
@[simp] theorem State.writeV_toneEvent (s : State) (x : Reg) (b : Byte) : (s.writeV x b).toneEvent = s.toneEvent := rfl
@[simp] theorem State.writeV_rnd (s : State) (x : Reg) (b : Byte) : (s.writeV x b).rnd = s.rnd := rfl
@[simp] theorem State.writeV_pending (s : State) (x : Reg) (b : Byte) : (s.writeV x b).pending = s.pending := rfl
@[simp] theorem State.writeV_cfg (s : State) (x : Reg) (b : Byte) : (s.writeV x b).cfg = s.cfg := rfl
@[simp] theorem State.writeV_draws (s : State) (x : Reg) (b : Byte) : (s.writeV x b).draws = s.draws := rfl
@[simp] theorem State.writeV_tail (s : State) (x : Reg) (b : Byte) : (s.writeV x b).tail = s.tail := rfl
@[simp] theorem State.writeV_served (s : State) (x : Reg) (b : Byte) : (s.writeV x b).served = s.served := rfl

@[simp] theorem State.poke_v (s : State) (a : Nat) (b : Byte) : (s.poke a b).v = s.v := rfl
@[simp] theorem State.poke_i (s : State) (a : Nat) (b : Byte) : (s.poke a b).i = s.i := rfl
@[simp] theorem State.poke_pc (s : State) (a : Nat) (b : Byte) : (s.poke a b).pc = s.pc := rfl
@[simp] theorem State.poke_stack (s : State) (a : Nat) (b : Byte) : (s.poke a b).stack = s.stack := rfl
@[simp] theorem State.poke_sp (s : State) (a : Nat) (b : Byte) : (s.poke a b).sp = s.sp := rfl
@[simp] theorem State.poke_dt (s : State) (a : Nat) (b : Byte) : (s.poke a b).dt = s.dt := rfl
@[simp] theorem State.poke_st (s : State) (a : Nat) (b : Byte) : (s.poke a b).st = s.st := rfl
@[simp] theorem State.poke_display (s : State) (a : Nat) (b : Byte) : (s.poke a b).display = s.display := rfl
@[simp] theorem State.poke_keys (s : State) (a : Nat) (b : Byte) : (s.poke a b).keys = s.keys := rfl
@[simp] theorem State.poke_fault (s : State) (a : Nat) (b : Byte) : (s.poke a b).fault = s.fault := rfl
@[simp] theorem State.poke_toneEvent (s : State) (a : Nat) (b : Byte) : (s.poke a b).toneEvent = s.toneEvent := rfl
@[simp] theorem State.poke_rnd (s : State) (a : Nat) (b : Byte) : (s.poke a b).rnd = s.rnd := rfl
@[simp] theorem State.poke_pending (s : State) (a : Nat) (b : Byte) : (s.poke a b).pending = s.pending := rfl
@[simp] theorem State.poke_cfg (s : State) (a : Nat) (b : Byte) : (s.poke a b).cfg = s.cfg := rfl
@[simp] theorem State.poke_draws (s : State) (a : Nat) (b : Byte) : (s.poke a b).draws = s.draws := rfl
@[simp] theorem State.poke_tail (s : State) (a : Nat) (b : Byte) : (s.poke a b).tail = s.tail := rfl
@[simp] theorem State.poke_served (s : State) (a : Nat) (b : Byte) : (s.poke a b).served = s.served := rfl

@[simp] theorem State.latch_v (s : State) (f : Fault) : (s.latch f).v = s.v := rfl
@[simp] theorem State.latch_i (s : State) (f : Fault) : (s.latch f).i = s.i := rfl
@[simp] theorem State.latch_pc (s : State) (f : Fault) : (s.latch f).pc = s.pc := rfl
@[simp] theorem State.latch_stack (s : State) (f : Fault) : (s.latch f).stack = s.stack := rfl
@[simp] theorem State.latch_sp (s : State) (f : Fault) : (s.latch f).sp = s.sp := rfl
@[simp] theorem State.latch_dt (s : State) (f : Fault) : (s.latch f).dt = s.dt := rfl
@[simp] theorem State.latch_st (s : State) (f : Fault) : (s.latch f).st = s.st := rfl
@[simp] theorem State.latch_mem (s : State) (f : Fault) : (s.latch f).mem = s.mem := rfl
@[simp] theorem State.latch_display (s : State) (f : Fault) : (s.latch f).display = s.display := rfl
@[simp] theorem State.latch_keys (s : State) (f : Fault) : (s.latch f).keys = s.keys := rfl
@[simp] theorem State.latch_rnd (s : State) (f : Fault) : (s.latch f).rnd = s.rnd := rfl
@[simp] theorem State.latch_pending (s : State) (f : Fault) : (s.latch f).pending = s.pending := rfl
@[simp] theorem State.latch_cfg (s : State) (f : Fault) : (s.latch f).cfg = s.cfg := rfl
@[simp] theorem State.latch_draws (s : State) (f : Fault) : (s.latch f).draws = s.draws := rfl
@[simp] theorem State.latch_tail (s : State) (f : Fault) : (s.latch f).tail = s.tail := rfl
@[simp] theorem State.latch_served (s : State) (f : Fault) : (s.latch f).served = s.served := rfl

@[simp] theorem State.writeFlagged_i (s : State) (x : Reg) (b : Byte) (c : Bool) : (s.writeFlagged x b c).i = s.i := rfl
@[simp] theorem State.writeFlagged_pc (s : State) (x : Reg) (b : Byte) (c : Bool) : (s.writeFlagged x b c).pc = s.pc := rfl
@[simp] theorem State.writeFlagged_stack (s : State) (x : Reg) (b : Byte) (c : Bool) : (s.writeFlagged x b c).stack = s.stack := rfl
@[simp] theorem State.writeFlagged_sp (s : State) (x : Reg) (b : Byte) (c : Bool) : (s.writeFlagged x b c).sp = s.sp := rfl
@[simp] theorem State.writeFlagged_dt (s : State) (x : Reg) (b : Byte) (c : Bool) : (s.writeFlagged x b c).dt = s.dt := rfl
@[simp] theorem State.writeFlagged_st (s : State) (x : Reg) (b : Byte) (c : Bool) : (s.writeFlagged x b c).st = s.st := rfl
@[simp] theorem State.writeFlagged_mem (s : State) (x : Reg) (b : Byte) (c : Bool) : (s.writeFlagged x b c).mem = s.mem := rfl
@[simp] theorem State.writeFlagged_display (s : State) (x : Reg) (b : Byte) (c : Bool) : (s.writeFlagged x b c).display = s.display := rfl
@[simp] theorem State.writeFlagged_keys (s : State) (x : Reg) (b : Byte) (c : Bool) : (s.writeFlagged x b c).keys = s.keys := rfl
@[simp] theorem State.writeFlagged_fault (s : State) (x : Reg) (b : Byte) (c : Bool) : (s.writeFlagged x b c).fault = s.fault := rfl
@[simp] theorem State.writeFlagged_toneEvent (s : State) (x : Reg) (b : Byte) (c : Bool) : (s.writeFlagged x b c).toneEvent = s.toneEvent := rfl
@[simp] theorem State.writeFlagged_rnd (s : State) (x : Reg) (b : Byte) (c : Bool) : (s.writeFlagged x b c).rnd = s.rnd := rfl
@[simp] theorem State.writeFlagged_pending (s : State) (x : Reg) (b : Byte) (c : Bool) : (s.writeFlagged x b c).pending = s.pending := rfl
@[simp] theorem State.writeFlagged_cfg (s : State) (x : Reg) (b : Byte) (c : Bool) : (s.writeFlagged x b c).cfg = s.cfg := rfl
@[simp] theorem State.writeFlagged_draws (s : State) (x : Reg) (b : Byte) (c : Bool) : (s.writeFlagged x b c).draws = s.draws := rfl
@[simp] theorem State.writeFlagged_tail (s : State) (x : Reg) (b : Byte) (c : Bool) : (s.writeFlagged x b c).tail = s.tail := rfl
@[simp] theorem State.writeFlagged_served (s : State) (x : Reg) (b : Byte) (c : Bool) : (s.writeFlagged x b c).served = s.served := rfl

@[simp] theorem State.issue_v (s : State) (c : Command) : (s.issue c).v = s.v := rfl
@[simp] theorem State.issue_i (s : State) (c : Command) : (s.issue c).i = s.i := rfl
@[simp] theorem State.issue_pc (s : State) (c : Command) : (s.issue c).pc = s.pc := rfl
@[simp] theorem State.issue_stack (s : State) (c : Command) : (s.issue c).stack = s.stack := rfl
@[simp] theorem State.issue_sp (s : State) (c : Command) : (s.issue c).sp = s.sp := rfl
@[simp] theorem State.issue_dt (s : State) (c : Command) : (s.issue c).dt = s.dt := rfl
@[simp] theorem State.issue_st (s : State) (c : Command) : (s.issue c).st = s.st := rfl
@[simp] theorem State.issue_mem (s : State) (c : Command) : (s.issue c).mem = s.mem := rfl
@[simp] theorem State.issue_display (s : State) (c : Command) : (s.issue c).display = s.display := rfl
@[simp] theorem State.issue_keys (s : State) (c : Command) : (s.issue c).keys = s.keys := rfl
@[simp] theorem State.issue_fault (s : State) (c : Command) : (s.issue c).fault = s.fault := rfl
@[simp] theorem State.issue_toneEvent (s : State) (c : Command) : (s.issue c).toneEvent = s.toneEvent := rfl
@[simp] theorem State.issue_rnd (s : State) (c : Command) : (s.issue c).rnd = s.rnd := rfl
@[simp] theorem State.issue_cfg (s : State) (c : Command) : (s.issue c).cfg = s.cfg := rfl
@[simp] theorem State.issue_draws (s : State) (c : Command) : (s.issue c).draws = s.draws := rfl
@[simp] theorem State.issue_tail (s : State) (c : Command) : (s.issue c).tail = s.tail := rfl
@[simp] theorem State.issue_served (s : State) (c : Command) : (s.issue c).served = s.served := rfl

@[simp] theorem State.withSchedule_v (s : State) (cs : List Command) (h : HostTail) (n : Nat) :
    (s.withSchedule cs h n).v = s.v := rfl
@[simp] theorem State.withSchedule_i (s : State) (cs : List Command) (h : HostTail) (n : Nat) :
    (s.withSchedule cs h n).i = s.i := rfl
@[simp] theorem State.withSchedule_pc (s : State) (cs : List Command) (h : HostTail) (n : Nat) :
    (s.withSchedule cs h n).pc = s.pc := rfl
@[simp] theorem State.withSchedule_stack (s : State) (cs : List Command) (h : HostTail) (n : Nat) :
    (s.withSchedule cs h n).stack = s.stack := rfl
@[simp] theorem State.withSchedule_sp (s : State) (cs : List Command) (h : HostTail) (n : Nat) :
    (s.withSchedule cs h n).sp = s.sp := rfl
@[simp] theorem State.withSchedule_dt (s : State) (cs : List Command) (h : HostTail) (n : Nat) :
    (s.withSchedule cs h n).dt = s.dt := rfl
@[simp] theorem State.withSchedule_st (s : State) (cs : List Command) (h : HostTail) (n : Nat) :
    (s.withSchedule cs h n).st = s.st := rfl
@[simp] theorem State.withSchedule_mem (s : State) (cs : List Command) (h : HostTail) (n : Nat) :
    (s.withSchedule cs h n).mem = s.mem := rfl
@[simp] theorem State.withSchedule_display (s : State) (cs : List Command) (h : HostTail) (n : Nat) :
    (s.withSchedule cs h n).display = s.display := rfl
@[simp] theorem State.withSchedule_keys (s : State) (cs : List Command) (h : HostTail) (n : Nat) :
    (s.withSchedule cs h n).keys = s.keys := rfl
@[simp] theorem State.withSchedule_fault (s : State) (cs : List Command) (h : HostTail) (n : Nat) :
    (s.withSchedule cs h n).fault = s.fault := rfl
@[simp] theorem State.withSchedule_toneEvent (s : State) (cs : List Command) (h : HostTail) (n : Nat) :
    (s.withSchedule cs h n).toneEvent = s.toneEvent := rfl
@[simp] theorem State.withSchedule_rnd (s : State) (cs : List Command) (h : HostTail) (n : Nat) :
    (s.withSchedule cs h n).rnd = s.rnd := rfl
@[simp] theorem State.withSchedule_cfg (s : State) (cs : List Command) (h : HostTail) (n : Nat) :
    (s.withSchedule cs h n).cfg = s.cfg := rfl
@[simp] theorem State.withSchedule_draws (s : State) (cs : List Command) (h : HostTail) (n : Nat) :
    (s.withSchedule cs h n).draws = s.draws := rfl
@[simp] theorem State.withSchedule_pending (s : State) (cs : List Command) (h : HostTail) (n : Nat) :
    (s.withSchedule cs h n).pending = cs := rfl
@[simp] theorem State.withSchedule_tail (s : State) (cs : List Command) (h : HostTail) (n : Nat) :
    (s.withSchedule cs h n).tail = h := rfl
@[simp] theorem State.withSchedule_served (s : State) (cs : List Command) (h : HostTail) (n : Nat) :
    (s.withSchedule cs h n).served = n := rfl
@[simp] theorem State.withSchedule_self (s : State) : s.withSchedule s.pending s.tail s.served = s := rfl
@[simp] theorem State.withSchedule_withSchedule (s : State) (cs cs' : List Command) (h h' : HostTail)
    (n n' : Nat) : (s.withSchedule cs h n).withSchedule cs' h' n' = s.withSchedule cs' h' n' := rfl

@[simp] theorem State.latch_fault (s : State) (f : Fault) : (s.latch f).fault = some f := rfl
@[simp] theorem State.latch_toneEvent (s : State) (f : Fault) : (s.latch f).toneEvent = false := rfl

/-- Writing registers in turn changes only the register file. -/
theorem State.writeRegsFrom_eq (bytes : List Byte) (k : Nat) (s : State) :
    State.writeRegsFrom k bytes s = { s with v := (State.writeRegsFrom k bytes s).v } := by
  induction bytes generalizing k s with
  | nil => rfl
  | cons b bs ih => rw [State.writeRegsFrom, ih]; rfl

/-- Writing bytes in turn changes only memory. -/
theorem State.pokeBytes_eq (bytes : List Byte) (a : Nat) (s : State) :
    State.pokeBytes a bytes s = { s with mem := (State.pokeBytes a bytes s).mem } := by
  induction bytes generalizing a s with
  | nil => rfl
  | cons b bs ih => rw [State.pokeBytes, ih]; rfl

@[simp] theorem State.writeRegsFrom_i (k : Nat) (bytes : List Byte) (s : State) : (State.writeRegsFrom k bytes s).i = s.i := by
  rw [State.writeRegsFrom_eq]
@[simp] theorem State.writeRegsFrom_pc (k : Nat) (bytes : List Byte) (s : State) : (State.writeRegsFrom k bytes s).pc = s.pc := by
  rw [State.writeRegsFrom_eq]
@[simp] theorem State.writeRegsFrom_stack (k : Nat) (bytes : List Byte) (s : State) : (State.writeRegsFrom k bytes s).stack = s.stack := by
  rw [State.writeRegsFrom_eq]
@[simp] theorem State.writeRegsFrom_sp (k : Nat) (bytes : List Byte) (s : State) : (State.writeRegsFrom k bytes s).sp = s.sp := by
  rw [State.writeRegsFrom_eq]
@[simp] theorem State.writeRegsFrom_dt (k : Nat) (bytes : List Byte) (s : State) : (State.writeRegsFrom k bytes s).dt = s.dt := by
  rw [State.writeRegsFrom_eq]
@[simp] theorem State.writeRegsFrom_st (k : Nat) (bytes : List Byte) (s : State) : (State.writeRegsFrom k bytes s).st = s.st := by
  rw [State.writeRegsFrom_eq]
@[simp] theorem State.writeRegsFrom_mem (k : Nat) (bytes : List Byte) (s : State) : (State.writeRegsFrom k bytes s).mem = s.mem := by
  rw [State.writeRegsFrom_eq]
@[simp] theorem State.writeRegsFrom_display (k : Nat) (bytes : List Byte) (s : State) : (State.writeRegsFrom k bytes s).display = s.display := by
  rw [State.writeRegsFrom_eq]
@[simp] theorem State.writeRegsFrom_keys (k : Nat) (bytes : List Byte) (s : State) : (State.writeRegsFrom k bytes s).keys = s.keys := by
  rw [State.writeRegsFrom_eq]
@[simp] theorem State.writeRegsFrom_fault (k : Nat) (bytes : List Byte) (s : State) : (State.writeRegsFrom k bytes s).fault = s.fault := by
  rw [State.writeRegsFrom_eq]
@[simp] theorem State.writeRegsFrom_toneEvent (k : Nat) (bytes : List Byte) (s : State) : (State.writeRegsFrom k bytes s).toneEvent = s.toneEvent := by
  rw [State.writeRegsFrom_eq]
@[simp] theorem State.writeRegsFrom_rnd (k : Nat) (bytes : List Byte) (s : State) : (State.writeRegsFrom k bytes s).rnd = s.rnd := by
  rw [State.writeRegsFrom_eq]
@[simp] theorem State.writeRegsFrom_pending (k : Nat) (bytes : List Byte) (s : State) : (State.writeRegsFrom k bytes s).pending = s.pending := by
  rw [State.writeRegsFrom_eq]
@[simp] theorem State.writeRegsFrom_cfg (k : Nat) (bytes : List Byte) (s : State) : (State.writeRegsFrom k bytes s).cfg = s.cfg := by
  rw [State.writeRegsFrom_eq]
@[simp] theorem State.writeRegsFrom_draws (k : Nat) (bytes : List Byte) (s : State) : (State.writeRegsFrom k bytes s).draws = s.draws := by
  rw [State.writeRegsFrom_eq]
@[simp] theorem State.writeRegsFrom_tail (k : Nat) (bytes : List Byte) (s : State) : (State.writeRegsFrom k bytes s).tail = s.tail := by
  rw [State.writeRegsFrom_eq]
@[simp] theorem State.writeRegsFrom_served (k : Nat) (bytes : List Byte) (s : State) : (State.writeRegsFrom k bytes s).served = s.served := by
  rw [State.writeRegsFrom_eq]

@[simp] theorem State.pokeBytes_v (a : Nat) (bytes : List Byte) (s : State) : (State.pokeBytes a bytes s).v = s.v := by
  rw [State.pokeBytes_eq]
@[simp] theorem State.pokeBytes_i (a : Nat) (bytes : List Byte) (s : State) : (State.pokeBytes a bytes s).i = s.i := by
  rw [State.pokeBytes_eq]
@[simp] theorem State.pokeBytes_pc (a : Nat) (bytes : List Byte) (s : State) : (State.pokeBytes a bytes s).pc = s.pc := by
  rw [State.pokeBytes_eq]
@[simp] theorem State.pokeBytes_stack (a : Nat) (bytes : List Byte) (s : State) : (State.pokeBytes a bytes s).stack = s.stack := by
  rw [State.pokeBytes_eq]
@[simp] theorem State.pokeBytes_sp (a : Nat) (bytes : List Byte) (s : State) : (State.pokeBytes a bytes s).sp = s.sp := by
  rw [State.pokeBytes_eq]
@[simp] theorem State.pokeBytes_dt (a : Nat) (bytes : List Byte) (s : State) : (State.pokeBytes a bytes s).dt = s.dt := by
  rw [State.pokeBytes_eq]
@[simp] theorem State.pokeBytes_st (a : Nat) (bytes : List Byte) (s : State) : (State.pokeBytes a bytes s).st = s.st := by
  rw [State.pokeBytes_eq]
@[simp] theorem State.pokeBytes_display (a : Nat) (bytes : List Byte) (s : State) : (State.pokeBytes a bytes s).display = s.display := by
  rw [State.pokeBytes_eq]
@[simp] theorem State.pokeBytes_keys (a : Nat) (bytes : List Byte) (s : State) : (State.pokeBytes a bytes s).keys = s.keys := by
  rw [State.pokeBytes_eq]
@[simp] theorem State.pokeBytes_fault (a : Nat) (bytes : List Byte) (s : State) : (State.pokeBytes a bytes s).fault = s.fault := by
  rw [State.pokeBytes_eq]
@[simp] theorem State.pokeBytes_toneEvent (a : Nat) (bytes : List Byte) (s : State) : (State.pokeBytes a bytes s).toneEvent = s.toneEvent := by
  rw [State.pokeBytes_eq]
@[simp] theorem State.pokeBytes_rnd (a : Nat) (bytes : List Byte) (s : State) : (State.pokeBytes a bytes s).rnd = s.rnd := by
  rw [State.pokeBytes_eq]
@[simp] theorem State.pokeBytes_pending (a : Nat) (bytes : List Byte) (s : State) : (State.pokeBytes a bytes s).pending = s.pending := by
  rw [State.pokeBytes_eq]
@[simp] theorem State.pokeBytes_cfg (a : Nat) (bytes : List Byte) (s : State) : (State.pokeBytes a bytes s).cfg = s.cfg := by
  rw [State.pokeBytes_eq]
@[simp] theorem State.pokeBytes_draws (a : Nat) (bytes : List Byte) (s : State) : (State.pokeBytes a bytes s).draws = s.draws := by
  rw [State.pokeBytes_eq]
@[simp] theorem State.pokeBytes_tail (a : Nat) (bytes : List Byte) (s : State) : (State.pokeBytes a bytes s).tail = s.tail := by
  rw [State.pokeBytes_eq]
@[simp] theorem State.pokeBytes_served (a : Nat) (bytes : List Byte) (s : State) : (State.pokeBytes a bytes s).served = s.served := by
  rw [State.pokeBytes_eq]

end Sys2Proof.Machine
end

