-- ==== Sys2Proof/Laws/Memory.lean ====
section
/-! SUPPORT. Memory: a read after a write, the canonical form and that every operation keeps it, and
that canonical memories which read alike are equal. -/

namespace Sys2Proof.Machine

variable {font : Font}

/-- Entries of a canonical list lie at or above its bound. -/
theorem Memory.read_below {lo : Nat} {m : Memory} (h : Memory.wfFrom font lo m = true) {a : Nat}
    (ha : a < lo) : Memory.read font m a = unlisted font a := by
  induction m generalizing lo with
  | nil => rfl
  | cons e m ih =>
    obtain ⟨k, b⟩ := e
    simp only [Memory.wfFrom, Bool.and_eq_true, decide_eq_true_eq] at h
    have hne : ¬ a = k := by omega
    simp only [Memory.read, hne, if_false]
    exact ih h.2 (by omega)

/-- A smaller bound admits the same canonical list. -/
theorem Memory.wfFrom_mono {lo lo' : Nat} {m : Memory} (h : Memory.wfFrom font lo m = true)
    (hle : lo' ≤ lo) : Memory.wfFrom font lo' m = true := by
  cases m with
  | nil => rfl
  | cons e m =>
    obtain ⟨k, b⟩ := e
    simp only [Memory.wfFrom, Bool.and_eq_true, decide_eq_true_eq] at h ⊢
    exact ⟨⟨⟨by omega, h.1.1.2⟩, h.1.2⟩, h.2⟩

theorem Memory.read_insert (m : Memory) (a : Nat) (v : Byte) (c : Nat) :
    Memory.read font (Memory.insert m a v) c = if c = a then v else Memory.read font m c := by
  induction m with
  | nil => rfl
  | cons e m ih =>
    obtain ⟨k, b⟩ := e
    simp only [Memory.insert]
    split
    · rfl
    · split
      · next h => subst h; simp only [Memory.read]; split <;> rfl
      · simp only [Memory.read, ih]
        split
        · next h => subst h; rw [if_neg (by omega)]
        · rfl

/-- After erasing an address of a canonical list it reads as unlisted, and the others as before. -/
theorem Memory.read_erase {lo : Nat} {m : Memory} (h : Memory.wfFrom font lo m = true) (a c : Nat) :
    Memory.read font (Memory.erase m a) c =
      if c = a then unlisted font a else Memory.read font m c := by
  induction m generalizing lo with
  | nil => simp only [Memory.erase, Memory.read]; split <;> simp_all
  | cons e m ih =>
    obtain ⟨k, b⟩ := e
    simp only [Memory.wfFrom, Bool.and_eq_true, decide_eq_true_eq] at h
    simp only [Memory.erase]
    split
    · next hak =>
      subst hak
      split
      · next hc => subst hc; exact Memory.read_below h.2 (by omega)
      · next hc => simp only [Memory.read, hc, if_false]
    · next hak =>
      simp only [Memory.read, ih h.2]
      split
      · next hc => subst hc; rw [if_neg (fun e => hak e.symm)]
      · rfl

theorem Memory.wfFrom_erase {lo : Nat} {m : Memory} (h : Memory.wfFrom font lo m = true) (a : Nat) :
    Memory.wfFrom font lo (Memory.erase m a) = true := by
  induction m generalizing lo with
  | nil => rfl
  | cons e m ih =>
    obtain ⟨k, b⟩ := e
    simp only [Memory.erase]
    have h' := h
    simp only [Memory.wfFrom, Bool.and_eq_true, decide_eq_true_eq] at h'
    split
    · exact Memory.wfFrom_mono h'.2 (by omega)
    · simp only [Memory.wfFrom, Bool.and_eq_true, decide_eq_true_eq]
      exact ⟨h'.1, ih h'.2⟩

theorem Memory.wfFrom_insert {lo : Nat} {m : Memory} (h : Memory.wfFrom font lo m = true) {a : Nat}
    {v : Byte} (hlo : lo ≤ a) (ha : a < 4096) (hv : v ≠ unlisted font a) :
    Memory.wfFrom font lo (Memory.insert m a v) = true := by
  induction m generalizing lo with
  | nil => simp [Memory.insert, Memory.wfFrom, hlo, ha, hv]
  | cons e m ih =>
    obtain ⟨k, b⟩ := e
    have h' := h
    simp only [Memory.wfFrom, Bool.and_eq_true, decide_eq_true_eq] at h'
    simp only [Memory.insert]
    split
    · simp only [Memory.wfFrom, Bool.and_eq_true, decide_eq_true_eq]
      exact ⟨⟨⟨hlo, ha⟩, hv⟩, ⟨⟨by omega, h'.1.1.2⟩, h'.1.2⟩, h'.2⟩
    · split
      · next hak =>
        subst hak
        simp only [Memory.wfFrom, Bool.and_eq_true, decide_eq_true_eq]
        exact ⟨⟨⟨hlo, ha⟩, hv⟩, h'.2⟩
      · simp only [Memory.wfFrom, Bool.and_eq_true, decide_eq_true_eq]
        exact ⟨h'.1, ih h'.2 (by omega)⟩

/-- A read after a write: the byte written at its address, every other address as before. -/
theorem Memory.read_write {m : Memory} (h : Memory.wf font m = true) (a : Nat) (v : Byte) (c : Nat) :
    Memory.read font (Memory.write font m a v) c = if c = a then v else Memory.read font m c := by
  unfold Memory.write
  split
  · next hv => rw [Memory.read_erase h, hv]
  · exact Memory.read_insert m a v c

/-- A write inside memory keeps the canonical form. -/
theorem Memory.wf_write {m : Memory} (h : Memory.wf font m = true) {a : Nat} (ha : a < 4096)
    (v : Byte) : Memory.wf font (Memory.write font m a v) = true := by
  unfold Memory.write
  split
  · exact Memory.wfFrom_erase h a
  · next hv => exact Memory.wfFrom_insert h (Nat.zero_le a) ha hv

/-- Canonical memories that read alike everywhere are the same list. -/
theorem Memory.ext_of_read {lo : Nat} {m m' : Memory} (h : Memory.wfFrom font lo m = true)
    (h' : Memory.wfFrom font lo m' = true)
    (hr : ∀ a, Memory.read font m a = Memory.read font m' a) : m = m' := by
  induction m generalizing lo m' with
  | nil =>
    cases m' with
    | nil => rfl
    | cons e m' =>
      obtain ⟨k, b⟩ := e
      simp only [Memory.wfFrom, Bool.and_eq_true, decide_eq_true_eq] at h'
      have := hr k
      simp only [Memory.read, if_true] at this
      exact absurd this.symm h'.1.2
  | cons e m ih =>
    obtain ⟨k, b⟩ := e
    simp only [Memory.wfFrom, Bool.and_eq_true, decide_eq_true_eq] at h
    cases m' with
    | nil =>
      have := hr k
      simp only [Memory.read, if_true] at this
      exact absurd this h.1.2
    | cons e' m' =>
      obtain ⟨k', b'⟩ := e'
      simp only [Memory.wfFrom, Bool.and_eq_true, decide_eq_true_eq] at h'
      have tailRead {j : Nat} {c : Byte} {t : Memory} (ht : Memory.wfFrom font (j + 1) t = true) (a : Nat)
          (ha : a ≤ j) : Memory.read font t a = unlisted font a := Memory.read_below ht (by omega)
      have hk : k = k' := by
        rcases Nat.lt_trichotomy k k' with hlt | heq | hgt
        · have := hr k
          simp only [Memory.read, if_true, if_neg (show ¬ k = k' by omega)] at this
          rw [Memory.read_below h'.2 (by omega)] at this
          exact absurd this h.1.2
        · exact heq
        · have := hr k'
          simp only [Memory.read, if_true, if_neg (show ¬ k' = k by omega)] at this
          rw [Memory.read_below h.2 (by omega)] at this
          exact absurd this.symm h'.1.2
      subst hk
      have hb : b = b' := by simpa [Memory.read] using hr k
      subst hb
      rw [ih h.2 h'.2 (fun a => ?_)]
      by_cases ha : a = k
      · subst ha; rw [Memory.read_below h.2 (by omega), Memory.read_below h'.2 (by omega)]
      · simpa [Memory.read, ha] using hr a

/-! ### The same through the state -/

/-- `MEM[a] <- b`: the byte at a is b, every other byte as before. -/
theorem State.peek_poke {s : State} (h : Memory.wf s.cfg.font s.mem = true) (a : Nat) (b : Byte)
    (c : Nat) : (s.poke a b).peek c = if c = a then b else s.peek c := Memory.read_write h a b c

theorem State.poke_wf {s : State} (h : Memory.wf s.cfg.font s.mem = true) {a : Nat} (ha : a < 4096)
    (b : Byte) : Memory.wf (s.poke a b).cfg.font (s.poke a b).mem = true := Memory.wf_write h ha b

/-- Bytes written in turn inside memory keep the canonical form. -/
theorem State.pokeBytes_wf {s : State} (h : Memory.wf s.cfg.font s.mem = true) (bytes : List Byte)
    (a : Nat) (ha : a + bytes.length ≤ 4096) :
    Memory.wf s.cfg.font (State.pokeBytes a bytes s).mem = true := by
  induction bytes generalizing a s with
  | nil => exact h
  | cons b bs ih =>
    have hl : a + (bs.length + 1) ≤ 4096 := ha
    exact ih (s := s.poke a b) (State.poke_wf h (by omega) b) (a + 1) (by omega)

/-- Reading after bytes were written in turn at a, a+1, ... -/
theorem State.peek_pokeBytes {s : State} (h : Memory.wf s.cfg.font s.mem = true) (bytes : List Byte)
    (a : Nat) (ha : a + bytes.length ≤ 4096) (c : Nat) :
    (State.pokeBytes a bytes s).peek c =
      if h : a ≤ c ∧ c < a + bytes.length then bytes[c - a]'(by omega) else s.peek c := by
  induction bytes generalizing a s with
  | nil => rw [dif_neg (by simp)]; rfl
  | cons b bs ih =>
    have hl : a + (bs.length + 1) ≤ 4096 := ha
    rw [State.pokeBytes, ih (s := s.poke a b) (State.poke_wf h (by omega) b) (a + 1) (by omega),
      State.peek_poke h]
    by_cases hca : c = a
    · subst hca
      rw [dif_neg (by omega), if_pos rfl, dif_pos (by simp)]
      simp
    · by_cases hin : a + 1 ≤ c ∧ c < a + 1 + bs.length
      · rw [dif_pos hin, dif_pos (by simp; omega)]
        have : c - a = (c - (a + 1)) + 1 := by omega
        simp only [this, List.getElem_cons_succ]
      · rw [dif_neg hin, if_neg hca, dif_neg (by simp; omega)]

@[simp] theorem State.peekBytes_length (s : State) (a n : Nat) : (s.peekBytes a n).length = n := by
  induction n generalizing a with
  | zero => rfl
  | succ n ih => simp [State.peekBytes, ih]

theorem State.getElem_peekBytes (s : State) (a n k : Nat) (hk : k < (s.peekBytes a n).length) :
    (s.peekBytes a n)[k] = s.peek (a + k) := by
  induction n generalizing a k with
  | zero => simp [State.peekBytes] at hk
  | succ n ih =>
    cases k with
    | zero => simp [State.peekBytes]
    | succ k =>
      simp only [State.peekBytes, List.getElem_cons_succ]
      rw [ih]
      congr 1
      omega

theorem inRange_iff (a n : Nat) : inRange a n = true ↔ n = 0 ∨ a + n ≤ 4096 := by
  simp [inRange]

/-- What `MemRead` can answer (rules R31, R32). -/
theorem State.memRead_ok {s : State} {a n : Nat} (h : n = 0 ∨ a + n ≤ 4096) :
    s.memRead a n = .ok (s.peekBytes a n) := if_pos ((inRange_iff a n).2 h)

theorem State.memRead_error {s : State} {a n : Nat} (hn : n ≠ 0) (h : 4096 < a + n) :
    s.memRead a n = .error .boundsViolation :=
  if_neg fun hr => by rcases (inRange_iff a n).1 hr with h0 | h1 <;> omega

/-- The only way `MemRead` fails. -/
theorem State.memRead_eq_error {s : State} {a n : Nat} {f : Fault} (h : s.memRead a n = .error f) :
    f = .boundsViolation := by
  unfold State.memRead at h
  split at h
  · cases h
  · injection h with h; exact h.symm

/-- What `MemWrite` can answer (rules R31, R33, R41). -/
theorem State.memWrite_ok {s : State} {a : Nat} {bytes : List Byte}
    (h : bytes.length = 0 ∨ a + bytes.length ≤ 4096) :
    s.memWrite a bytes = .ok (State.pokeBytes a bytes s) := if_pos ((inRange_iff a _).2 h)

theorem State.memWrite_error {s : State} {a : Nat} {bytes : List Byte} (hn : bytes.length ≠ 0)
    (h : 4096 < a + bytes.length) : s.memWrite a bytes = .error .boundsViolation :=
  if_neg fun hr => by rcases (inRange_iff a _).1 hr with h0 | h1 <;> omega

/-- If `MemWrite` answers, it wrote its bytes in turn, in range. -/
theorem State.memWrite_eq_ok {s t : State} {a : Nat} {bytes : List Byte} (h : s.memWrite a bytes = .ok t) :
    t = State.pokeBytes a bytes s ∧ (bytes.length = 0 ∨ a + bytes.length ≤ 4096) := by
  unfold State.memWrite at h
  split at h
  · next hr => exact ⟨by injection h with h; exact h.symm, (inRange_iff a _).1 hr⟩
  · cases h

/-- If `MemWrite` fails, it is a bounds violation. -/
theorem State.memWrite_eq_error {s : State} {a : Nat} {bytes : List Byte} {f : Fault}
    (h : s.memWrite a bytes = .error f) : f = .boundsViolation ∧ 4096 < a + bytes.length := by
  unfold State.memWrite at h
  split at h
  · cases h
  · next hr =>
    injection h with h
    refine ⟨h.symm, ?_⟩
    rw [inRange_iff] at hr
    omega

/-- Memory after a successful `MemWrite` is canonical. -/
theorem State.memWrite_wf {s t : State} {a : Nat} {bytes : List Byte}
    (hwf : Memory.wf s.cfg.font s.mem = true) (h : s.memWrite a bytes = .ok t) :
    Memory.wf t.cfg.font t.mem = true := by
  obtain ⟨rfl, hr⟩ := State.memWrite_eq_ok h
  rw [State.pokeBytes_cfg]
  rcases hr with h0 | h1
  · cases bytes with
    | nil => exact hwf
    | cons b bs => simp at h0
  · exact State.pokeBytes_wf hwf bytes a h1

/-- Memory right after reset is canonical. -/
theorem State.baseline_memWf (cfg : Config) :
    Memory.wf (State.baseline cfg).cfg.font (State.baseline cfg).mem = true := rfl

end Sys2Proof.Machine
end

