-- ==== Sys2Proof/Laws/Ops.lean ====
section
/-! SUPPORT. What each shared operation can do, said once: registers, display cells, the call stack,
taking a fatal condition, the end of a tick. -/

namespace Sys2Proof.Machine

/-! ### Registers -/

theorem State.readV_writeV (s : State) (x r : Reg) (b : Byte) :
    (s.writeV x b).readV r = if r = x then b else s.readV r := by
  by_cases h : r = x
  · subst h; simp [State.readV, State.writeV]
  · have : ¬ x.toNat = r.toNat := fun e => h (BitVec.eq_of_toNat_eq e.symm)
    simp [State.readV, State.writeV, this, h]

@[simp] theorem State.readV_writeV_self (s : State) (x : Reg) (b : Byte) : (s.writeV x b).readV x = b := by
  simp [State.readV_writeV]

/-- The flag is what stands in VF; the result stands in VX unless X is VF (`42_alu.md` rule R102). -/
theorem State.readV_writeFlagged (s : State) (x r : Reg) (b : Byte) (c : Bool) :
    (s.writeFlagged x b c).readV r =
      if r = VF then flagByte c else if r = x then b else s.readV r := by
  simp only [State.writeFlagged, State.readV_writeV]

/-- Reading after registers k, k+1, ... were written in turn. -/
theorem State.readV_writeRegsFrom (bytes : List Byte) (k : Nat) (s : State) (hk : k + bytes.length ≤ 16)
    (r : Reg) : (State.writeRegsFrom k bytes s).readV r =
      if h : k ≤ r.toNat ∧ r.toNat < k + bytes.length then bytes[r.toNat - k]'(by omega)
      else s.readV r := by
  induction bytes generalizing k s with
  | nil => rw [dif_neg (by simp)]; rfl
  | cons b bs ih =>
    have hl : k + (bs.length + 1) ≤ 16 := hk
    rw [State.writeRegsFrom, ih (k + 1) _ (by omega), State.readV_writeV]
    have hkk : (BitVec.ofNat 4 k).toNat = k := by
      rw [BitVec.toNat_ofNat]; exact Nat.mod_eq_of_lt (by omega)
    by_cases hr : r.toNat = k
    · have hrk : r = BitVec.ofNat 4 k := BitVec.eq_of_toNat_eq (by rw [hkk, hr])
      rw [dif_neg (by omega), if_pos hrk, dif_pos (by simp; omega)]
      simp [hr]
    · have hrk : r ≠ BitVec.ofNat 4 k := fun e => hr (by rw [e, hkk])
      by_cases hin : k + 1 ≤ r.toNat ∧ r.toNat < k + 1 + bs.length
      · rw [dif_pos hin, dif_pos (by simp; omega)]
        have : r.toNat - k = (r.toNat - (k + 1)) + 1 := by omega
        simp only [this, List.getElem_cons_succ]
      · rw [dif_neg hin, if_neg hrk, dif_neg (by simp; omega)]

theorem State.firstRegs_length (s : State) {n : Nat} (h : n ≤ 16) : (s.firstRegs n).length = n := by
  simp [State.firstRegs, h]

theorem State.getElem_firstRegs (s : State) (n k : Nat) (hk : k < (s.firstRegs n).length) (hk16 : k < 16) :
    (s.firstRegs n)[k] = s.readV (BitVec.ofNat 4 k) := by
  have : (BitVec.ofNat 4 k).toNat = k := by
    rw [BitVec.toNat_ofNat]; exact Nat.mod_eq_of_lt (by omega)
  simp [State.firstRegs, State.readV, Nat.mod_eq_of_lt hk16]

/-! ### Display cells -/

theorem setColumn_getLsbD (row : BitVec 64) (x : Nat) (b : Bool) (hx : x < 64) (k : Nat) (hk : k < 64) :
    (setColumn row x b).getLsbD k = if k = x then b else row.getLsbD k := by
  unfold setColumn
  by_cases hkx : k = x
  · subst hkx
    cases b <;> simp [hk]
  · have h1 : ((1#64) <<< x).getLsbD k = false := by
      simp only [BitVec.getLsbD_shiftLeft, hk, decide_true, Bool.true_and]
      by_cases hlt : k < x
      · simp [hlt]
      · have : ¬ k - x = 0 := by omega
        simp [BitVec.getLsbD_one, this]
    cases b
    · simp only [Bool.false_eq_true, if_false, if_neg hkx, BitVec.getLsbD_and, BitVec.getLsbD_not, h1, hk]
      simp
    · simp [h1, hkx]

theorem Display.cell_setCell (d : Display) (idx : Nat) (b : Bool) (hidx : idx < 2048) (j : Nat) :
    (Display.setCell d idx b).cell j = if j = idx then b else d.cell j := by
  have hrow : idx / 64 < 32 := by omega
  unfold Display.setCell
  rw [dif_pos hrow]
  unfold Display.cell
  by_cases hj : j / 64 < 32
  · rw [dif_pos hj, dif_pos hj, Vector.getElem_set]
    by_cases hr : idx / 64 = j / 64
    · rw [if_pos hr, setColumn_getLsbD _ _ _ (Nat.mod_lt _ (by omega)) _ (Nat.mod_lt _ (by omega))]
      by_cases hji : j = idx
      · subst hji; simp
      · have : ¬ j % 64 = idx % 64 := by omega
        rw [if_neg this, if_neg hji]
        simp only [hr]
    · rw [if_neg hr, if_neg (by intro e; subst e; exact hr rfl)]
  · rw [dif_neg hj, dif_neg hj, if_neg (by omega)]

/-- Displays with the same cells are the same display. -/
theorem Display.ext_of_cell {d d' : Display} (h : ∀ idx, idx < 2048 → d.cell idx = d'.cell idx) :
    d = d' := by
  apply Vector.ext
  intro y hy
  apply BitVec.eq_of_getLsbD_eq
  intro x hx
  have := h (y * 64 + x) (by omega)
  have h1 : (y * 64 + x) / 64 = y := by omega
  have h2 : (y * 64 + x) % 64 = x := by omega
  simp only [Display.cell, h1, h2, dif_pos hy] at this
  exact this

theorem blankDisplay_cell (idx : Nat) : Display.cell blankDisplay idx = false := by
  unfold Display.cell blankDisplay
  split <;> simp

/-! ### Call stack -/

theorem State.push_ok {s : State} (w : Word) (h : s.sp.val < 16) :
    s.push w = .ok { s with stack := s.stack.set s.sp.val w h, sp := ⟨s.sp.val + 1, Nat.succ_lt_succ h⟩ } :=
  dif_pos h

theorem State.push_error {s : State} (w : Word) (h : ¬ s.sp.val < 16) :
    s.push w = .error .stackExhaustion := dif_neg h

theorem State.pop_ok {s : State} {k : Nat} (hk : k < 16) (h : s.sp.val = k + 1) :
    s.pop = .ok (s.stack[k], { s with sp := ⟨k, by omega⟩ }) := by
  obtain ⟨v, i, pc, stack, sp, _⟩ := s
  obtain ⟨n, hn⟩ := sp
  have hn' : n = k + 1 := h
  subst hn'
  rfl

theorem State.pop_error {s : State} (h : s.sp.val = 0) : s.pop = .error .stackUnderflow := by
  obtain ⟨v, i, pc, stack, sp, _⟩ := s
  obtain ⟨n, hn⟩ := sp
  have hn' : n = 0 := h
  subst hn'
  rfl

/-- If `push` answers, there was room, and it did what rule R14 says. -/
theorem State.push_eq_ok {s t : State} {w : Word} (h : s.push w = .ok t) :
    ∃ hlt : s.sp.val < 16,
      t = { s with stack := s.stack.set s.sp.val w hlt, sp := ⟨s.sp.val + 1, Nat.succ_lt_succ hlt⟩ } := by
  by_cases hlt : s.sp.val < 16
  · rw [State.push_ok w hlt] at h
    injection h with h
    exact ⟨hlt, h.symm⟩
  · rw [State.push_error w hlt] at h
    cases h

/-- If `push` fails, the stack was full. -/
theorem State.push_eq_error {s : State} {w : Word} {f : Fault} (h : s.push w = .error f) :
    f = .stackExhaustion ∧ s.sp.val = 16 := by
  by_cases hlt : s.sp.val < 16
  · rw [State.push_ok w hlt] at h; cases h
  · rw [State.push_error w hlt] at h
    injection h with h
    exact ⟨h.symm, by have := s.sp.isLt; omega⟩

/-- If `pop` answers, the stack held an address, and it did what rule R14 says. -/
theorem State.pop_eq_ok {s : State} {p : Word × State} (h : s.pop = .ok p) :
    ∃ (k : Nat) (hk : k < 16), s.sp.val = k + 1 ∧ p = (s.stack[k], { s with sp := ⟨k, by omega⟩ }) := by
  rcases Nat.eq_zero_or_pos s.sp.val with h0 | hpos
  · rw [State.pop_error h0] at h; cases h
  · have hk : s.sp.val - 1 < 16 := by have := s.sp.isLt; omega
    have he : s.sp.val = s.sp.val - 1 + 1 := by omega
    rw [State.pop_ok hk he] at h
    injection h with h
    exact ⟨s.sp.val - 1, hk, he, h.symm⟩

/-- If `pop` fails, the stack was empty. -/
theorem State.pop_eq_error {s : State} {f : Fault} (h : s.pop = .error f) :
    f = .stackUnderflow ∧ s.sp.val = 0 := by
  rcases Nat.eq_zero_or_pos s.sp.val with h0 | hpos
  · rw [State.pop_error h0] at h; injection h with h; exact ⟨h.symm, h0⟩
  · have hk : s.sp.val - 1 < 16 := by have := s.sp.isLt; omega
    rw [State.pop_ok hk (by omega)] at h; cases h

/-! ### Fatal conditions and the end of a tick -/

theorem raise_eq (f : Fault) (s : State) : raise f s = .next (s.latch f) := rfl

theorem finish_ok {before after : State} {pc' : Nat} (h : pc' ≤ 4095) :
    finish before after pc' = .next { after with pc := BitVec.ofNat 16 pc', toneEvent := false } :=
  if_pos h

theorem finish_bad {before after : State} {pc' : Nat} (h : 4095 < pc') :
    finish before after pc' = .next (before.latch .boundsViolation) := if_neg (by omega)

/-- Everything the end of a tick can answer: the commit, or a bounds violation with nothing committed. -/
theorem finish_cases {before after t : State} {pc' : Nat} (h : finish before after pc' = .next t) :
    (pc' ≤ 4095 ∧ t = { after with pc := BitVec.ofNat 16 pc', toneEvent := false }) ∨
      (4095 < pc' ∧ t = before.latch .boundsViolation) := by
  by_cases hp : pc' ≤ 4095
  · rw [finish_ok hp] at h; injection h with h; exact .inl ⟨hp, h.symm⟩
  · rw [finish_bad (by omega)] at h; injection h with h; exact .inr ⟨by omega, h.symm⟩

/-- The end of a tick always answers a next state. -/
theorem finish_total (before after : State) (pc' : Nat) : ∃ t, finish before after pc' = .next t := by
  unfold finish raise
  split <;> exact ⟨_, rfl⟩

@[simp] theorem attempt_ok {α : Type} (s : State) (x : α) (k : α → Outcome) :
    attempt s (.ok x) k = k x := rfl

@[simp] theorem attempt_error {α : Type} (s : State) (f : Fault) (k : α → Outcome) :
    attempt s (.error f) k = .next (s.latch f) := rfl

/-- Everything a checked operation can lead to: its continuation, or its fatal condition with nothing
committed. -/
theorem attempt_cases {α : Type} {s t : State} {r : Except Fault α} {k : α → Outcome}
    (h : attempt s r k = .next t) :
    (∃ x, r = .ok x ∧ k x = .next t) ∨ (∃ f, r = .error f ∧ t = s.latch f) := by
  cases r with
  | ok x => exact .inl ⟨x, rfl, h⟩
  | error f => injection h with h; exact .inr ⟨f, rfl, h.symm⟩

/-- A checked operation answers a next state when its continuation does. -/
theorem attempt_total {α : Type} (s : State) (r : Except Fault α) {k : α → Outcome}
    (hk : ∀ x, ∃ t, k x = .next t) : ∃ t, attempt s r k = .next t := by
  cases r with
  | ok x => exact hk x
  | error f => exact ⟨_, rfl⟩

/-- A PC the end of a tick accepts is held exactly. -/
theorem toNat_ofNat_of_le {n : Nat} (h : n ≤ 4095) : (BitVec.ofNat 16 n).toNat = n := by
  rw [BitVec.toNat_ofNat]; exact Nat.mod_eq_of_lt (by omega)

end Sys2Proof.Machine
end

