-- ==== Sys2Proof/Laws/Operands.lean ====
section
/-! SUPPORT. What the operand forms, the flags and the sprite drawing can do, said once. -/

namespace Sys2Proof.Machine

/-! ### Immediates, flags, indices -/

@[simp] theorem addrWord_toNat (nnn : Addr) : (addrWord nnn).toNat = nnn.toNat := by
  simp only [addrWord, BitVec.toNat_setWidth]
  exact Nat.mod_eq_of_lt (by have := nnn.isLt; omega)

@[simp] theorem byteWord_toNat (b : Byte) : (byteWord b).toNat = b.toNat := by
  simp only [byteWord, BitVec.toNat_setWidth]
  exact Nat.mod_eq_of_lt (by have := b.isLt; omega)

theorem flagByte_toNat (c : Bool) : (flagByte c).toNat = if c then 1 else 0 := by cases c <;> rfl

/-- A flag is 0 or 1 (`10_state.md` rule R11). -/
theorem flagByte_cases (c : Bool) : flagByte c = 0 ∨ flagByte c = 1 := by cases c <;> simp [flagByte]

theorem droppedLow_eq (a : Byte) : droppedLow a = decide (a.toNat % 2 = 1) := by
  simp [droppedLow, BitVec.getLsbD, Nat.testBit_zero]

theorem droppedHigh_eq (a : Byte) : droppedHigh a = decide (128 ≤ a.toNat) := by
  have := a.isLt
  rw [droppedHigh, BitVec.getLsbD, Nat.testBit_eq_decide_div_mod_eq]
  congr 1
  apply propext
  constructor <;> intro h <;> omega

theorem keyIndex_ok {b : Byte} (h : b.toNat < 16) : keyIndex b = .ok ⟨b.toNat, h⟩ := dif_pos h

theorem keyIndex_error {b : Byte} (h : 15 < b.toNat) : keyIndex b = .error .boundsViolation :=
  dif_neg (by omega)

/-- The only way a key number fails. -/
theorem keyIndex_eq_error {b : Byte} {f : Fault} (h : keyIndex b = .error f) : f = .boundsViolation := by
  unfold keyIndex at h
  split at h
  · cases h
  · injection h with h; exact h.symm

theorem glyphAddress_ok {b : Byte} (h : b.toNat ≤ 15) :
    glyphAddress b = .ok (BitVec.ofNat 16 (5 * b.toNat)) := if_pos h

theorem glyphAddress_error {b : Byte} (h : 15 < b.toNat) : glyphAddress b = .error .boundsViolation :=
  if_neg (by omega)

/-- The only way a glyph lookup fails. -/
theorem glyphAddress_eq_error {b : Byte} {f : Fault} (h : glyphAddress b = .error f) :
    f = .boundsViolation := by
  unfold glyphAddress at h
  split at h
  · cases h
  · injection h with h; exact h.symm

/-! ### Decimal digits (`43_index_memory.md` rule R113) -/

theorem bcdDigits_fixed3 (b : Byte) :
    bcdDigits .fixed3 b =
      [BitVec.ofNat 8 (b.toNat / 100), BitVec.ofNat 8 (b.toNat / 10 % 10), BitVec.ofNat 8 (b.toNat % 10)] :=
  rfl

theorem bcdDigits_variable (b : Byte) :
    bcdDigits .variableLength b =
      if 100 ≤ b.toNat then
        [BitVec.ofNat 8 (b.toNat / 100), BitVec.ofNat 8 (b.toNat / 10 % 10), BitVec.ofNat 8 (b.toNat % 10)]
      else if 10 ≤ b.toNat then [BitVec.ofNat 8 (b.toNat / 10), BitVec.ofNat 8 (b.toNat % 10)]
      else [BitVec.ofNat 8 b.toNat] := by
  have hb := b.isLt
  simp only [bcdDigits]
  by_cases h1 : 100 ≤ b.toNat
  · rw [if_pos (by omega), if_pos h1]
  · rw [if_neg (by omega), if_neg h1]
    by_cases h2 : 10 ≤ b.toNat
    · rw [if_pos (by omega), if_pos h2, Nat.mod_eq_of_lt (show b.toNat / 10 < 10 by omega)]
    · rw [if_neg (by omega), if_neg h2, Nat.mod_eq_of_lt (show b.toNat < 10 by omega)]

/-- One to three digits are stored. -/
theorem bcdDigits_length (variant : BcdVariant) (b : Byte) :
    1 ≤ (bcdDigits variant b).length ∧ (bcdDigits variant b).length ≤ 3 := by
  cases variant
  · rw [bcdDigits_variable]; split
    · simp
    · split <;> simp
  · simp [bcdDigits_fixed3]

/-! ### Keys (`45_keypad_timers.md` rule R138) -/

theorem highestKeyBelow_none {keys : Vector Bool 16} {n : Nat} {hn : n ≤ 16} :
    highestKeyBelow keys n hn = none ↔ ∀ (k : Nat) (_ : k < n), keys[k] = false := by
  induction n with
  | zero => simp [highestKeyBelow]
  | succ n ih =>
    simp only [highestKeyBelow]
    split
    · next h =>
      constructor
      · intro e; cases e
      · intro hall; rw [hall n (by omega)] at h; cases h
    · next h =>
      rw [ih]
      constructor
      · intro hall k hk
        rcases Nat.lt_succ_iff_lt_or_eq.1 hk with hlt | heq
        · exact hall k hlt
        · subst heq; simpa using h
      · intro hall k hk; exact hall k (by omega)

theorem highestKeyBelow_some {keys : Vector Bool 16} {n : Nat} {hn : n ≤ 16} {k : Nat} :
    highestKeyBelow keys n hn = some k ↔
      ∃ hk : k < n, keys[k] = true ∧ ∀ (j : Nat) (_ : j < n), k < j → keys[j] = false := by
  induction n with
  | zero => simp [highestKeyBelow]
  | succ n ih =>
    simp only [highestKeyBelow]
    split
    · next h =>
      constructor
      · intro e
        injection e with e
        subst e
        exact ⟨by omega, h, fun j hj hlt => absurd hj (by omega)⟩
      · rintro ⟨hk, hkt, hall⟩
        rcases Nat.lt_succ_iff_lt_or_eq.1 hk with hlt | heq
        · rw [hall n (by omega) hlt] at h; cases h
        · rw [heq]
    · next h =>
      rw [ih]
      constructor
      · rintro ⟨hk, hkt, hall⟩
        refine ⟨by omega, hkt, fun j hj hlt => ?_⟩
        rcases Nat.lt_succ_iff_lt_or_eq.1 hj with hj' | heq
        · exact hall j hj' hlt
        · subst heq; simpa using h
      · rintro ⟨hk, hkt, hall⟩
        rcases Nat.lt_succ_iff_lt_or_eq.1 hk with hlt | heq
        · exact ⟨hlt, hkt, fun j hj hlt' => hall j (by omega) hlt'⟩
        · subst heq; exact absurd hkt h

/-- No key is down exactly when the wait goes on. -/
theorem highestKey_none {keys : Vector Bool 16} :
    highestKey keys = none ↔ ∀ (k : Nat) (_ : k < 16), keys[k] = false := highestKeyBelow_none

/-- The key that is answered is down, and none above it is. -/
theorem highestKey_some {keys : Vector Bool 16} {k : Nat} :
    highestKey keys = some k ↔
      ∃ hk : k < 16, keys[k] = true ∧ ∀ (j : Nat) (_ : j < 16), k < j → keys[j] = false :=
  highestKeyBelow_some

/-! ### Sprites (`44_display.md` rules R126, R127) -/

/-- What a pixel leaves in its cell. -/
def pixelAfter (variant : DrawVariant) (old bit : Bool) : Bool :=
  match variant with
  | .xorCollision => old != bit
  | .sourceOverwrite => bit

/-- Whether a pixel counts as a collision. -/
def pixelHits (variant : DrawVariant) (old bit : Bool) : Bool :=
  match variant with
  | .xorCollision => bit && old
  | .sourceOverwrite => false

theorem cellIndex_lt (x0 y0 r c : Nat) : cellIndex x0 y0 r c < 2048 := by unfold cellIndex; omega

/-- No two pixels of one sprite land on the same cell (rule R127). -/
theorem cellIndex_inj {x0 y0 r c r' c' : Nat} (hr : r < 32) (hr' : r' < 32) (hc : c < 8) (hc' : c' < 8)
    (h : cellIndex x0 y0 r c = cellIndex x0 y0 r' c') : r = r' ∧ c = c' := by
  unfold cellIndex at h; omega

theorem drawPixel_cell (variant : DrawVariant) (bit : Bool) (idx : Nat) (hidx : idx < 2048)
    (acc : Display × Bool) (j : Nat) :
    Display.cell (drawPixel variant bit idx acc).1 j =
      if j = idx then pixelAfter variant (Display.cell acc.1 idx) bit else Display.cell acc.1 j := by
  cases variant
  · cases bit
    · simp only [drawPixel, pixelAfter, Bool.false_eq_true, if_false]
      split
      · next h => subst h; simp
      · rfl
    · simp only [drawPixel, pixelAfter, if_true, Display.cell_setCell _ _ _ hidx]
      split
      · simp
      · rfl
  · simp only [drawPixel, pixelAfter, Display.cell_setCell _ _ _ hidx]

theorem drawPixel_hit (variant : DrawVariant) (bit : Bool) (idx : Nat) (acc : Display × Bool) :
    (drawPixel variant bit idx acc).2 = (acc.2 || pixelHits variant (Display.cell acc.1 idx) bit) := by
  cases variant
  · cases bit <;> simp [drawPixel, pixelHits]
  · simp [drawPixel, pixelHits]

/-- The first n columns of one sprite row: which cells change, how, and which count as collisions. -/
theorem drawColumns_spec (variant : DrawVariant) (x0 y0 r : Nat) (row : Byte) (n : Nat) (hn : n ≤ 8)
    (acc : Display × Bool) :
    (∀ idx, (∀ c, c < n → cellIndex x0 y0 r c ≠ idx) →
      Display.cell (drawColumns variant x0 y0 r row n acc).1 idx = Display.cell acc.1 idx) ∧
    (∀ c, c < n → Display.cell (drawColumns variant x0 y0 r row n acc).1 (cellIndex x0 y0 r c) =
      pixelAfter variant (Display.cell acc.1 (cellIndex x0 y0 r c)) (spriteBit row c)) ∧
    ((drawColumns variant x0 y0 r row n acc).2 = true ↔ acc.2 = true ∨ ∃ c, c < n ∧
      pixelHits variant (Display.cell acc.1 (cellIndex x0 y0 r c)) (spriteBit row c) = true) := by
  induction n with
  | zero => simp [drawColumns]
  | succ n ih =>
    obtain ⟨ih1, ih2, ih3⟩ := ih (by omega)
    have fresh : ∀ c, c < n → cellIndex x0 y0 r c ≠ cellIndex x0 y0 r n := by
      intro c hc e
      unfold cellIndex at e; omega
    have keep := ih1 (cellIndex x0 y0 r n) fresh
    refine ⟨?_, ?_, ?_⟩
    · intro idx hidx
      rw [drawColumns, drawPixel_cell _ _ _ (cellIndex_lt ..), if_neg (fun e => hidx n (by omega) e.symm)]
      exact ih1 idx (fun c hc => hidx c (by omega))
    · intro c hc
      rw [drawColumns, drawPixel_cell _ _ _ (cellIndex_lt ..)]
      rcases Nat.lt_succ_iff_lt_or_eq.1 hc with hlt | heq
      · rw [if_neg (fresh c hlt), ih2 c hlt]
      · subst heq; rw [if_pos rfl, keep]
    · rw [drawColumns, drawPixel_hit, Bool.or_eq_true, ih3, keep]
      constructor
      · rintro ((h | ⟨c, hc, h⟩) | h)
        · exact .inl h
        · exact .inr ⟨c, by omega, h⟩
        · exact .inr ⟨n, by omega, h⟩
      · rintro (h | ⟨c, hc, h⟩)
        · exact .inl (.inl h)
        · rcases Nat.lt_succ_iff_lt_or_eq.1 hc with hlt | heq
          · exact .inl (.inr ⟨c, hlt, h⟩)
          · subst heq; exact .inr h

/-- Sprite rows from row r0 down: which cells change, how, and which count as collisions. -/
theorem drawRowsFrom_spec (variant : DrawVariant) (x0 y0 : Nat) (rows : List Byte) (r0 : Nat)
    (hr : r0 + rows.length ≤ 32) (acc : Display × Bool) :
    (∀ idx, (∀ k c, k < rows.length → c < 8 → cellIndex x0 y0 (r0 + k) c ≠ idx) →
      Display.cell (drawRowsFrom variant x0 y0 r0 rows acc).1 idx = Display.cell acc.1 idx) ∧
    (∀ (k c : Nat) (hk : k < rows.length), c < 8 →
      Display.cell (drawRowsFrom variant x0 y0 r0 rows acc).1 (cellIndex x0 y0 (r0 + k) c) =
        pixelAfter variant (Display.cell acc.1 (cellIndex x0 y0 (r0 + k) c)) (spriteBit rows[k] c)) ∧
    ((drawRowsFrom variant x0 y0 r0 rows acc).2 = true ↔ acc.2 = true ∨
      ∃ (k c : Nat) (hk : k < rows.length), c < 8 ∧
        pixelHits variant (Display.cell acc.1 (cellIndex x0 y0 (r0 + k) c)) (spriteBit rows[k] c) = true) := by
  induction rows generalizing r0 acc with
  | nil => simp [drawRowsFrom]
  | cons row rows ih =>
    have hl : r0 + (rows.length + 1) ≤ 32 := hr
    obtain ⟨c1, c2, c3⟩ := drawColumns_spec variant x0 y0 r0 row 8 (Nat.le_refl 8) acc
    obtain ⟨ih1, ih2, ih3⟩ := ih (r0 + 1) (by omega) (drawColumns variant x0 y0 r0 row 8 acc)
    -- the cells of the later rows are not among those of row r0
    have fresh : ∀ k c, k < rows.length → c < 8 →
        Display.cell (drawColumns variant x0 y0 r0 row 8 acc).1 (cellIndex x0 y0 (r0 + 1 + k) c) =
          Display.cell acc.1 (cellIndex x0 y0 (r0 + 1 + k) c) := by
      intro k c hk hc
      refine c1 _ (fun c' hc' e => ?_)
      have := (cellIndex_inj (by omega) (by omega) hc' hc e).1
      omega
    refine ⟨?_, ?_, ?_⟩
    · intro idx hidx
      rw [drawRowsFrom, ih1 idx ?_, c1 idx ?_]
      · intro c hc; simpa using hidx 0 c (by simp) hc
      · intro k c hk hc
        have := hidx (k + 1) c (by simp; omega) hc
        rwa [show r0 + (k + 1) = r0 + 1 + k by omega] at this
    · intro k c hk hc
      rw [drawRowsFrom]
      cases k with
      | zero =>
        rw [ih1 _ ?_]
        · simpa using c2 c hc
        · intro k' c' hk' hc' e
          have := (cellIndex_inj (by omega) (by omega) hc' hc e).1
          omega
      | succ k =>
        have hk' : k < rows.length := by simpa using hk
        rw [show r0 + (k + 1) = r0 + 1 + k by omega, ih2 k c hk' hc, fresh k c hk' hc]
        rfl
    · rw [drawRowsFrom, ih3, c3]
      constructor
      · rintro ((h | ⟨c, hc, h⟩) | ⟨k, c, hk, hc, h⟩)
        · exact .inl h
        · exact .inr ⟨0, c, by simp, hc, by simpa using h⟩
        · rw [fresh k c hk hc] at h
          refine .inr ⟨k + 1, c, by simp; omega, hc, ?_⟩
          rw [show r0 + (k + 1) = r0 + 1 + k by omega]; exact h
      · rintro (h | ⟨k, c, hk, hc, h⟩)
        · exact .inl (.inl h)
        · cases k with
          | zero => exact .inl (.inr ⟨c, hc, by simpa using h⟩)
          | succ k =>
            have hk' : k < rows.length := by simpa using hk
            refine .inr ⟨k, c, hk', hc, ?_⟩
            rw [fresh k c hk' hc]
            rw [show r0 + (k + 1) = r0 + 1 + k by omega] at h; exact h

end Sys2Proof.Machine
end

