-- ==== Sys2Proof/Laws/Cycle.lean ====
section
/-! SUPPORT. What a fetch, a tick and a host operation can answer, said once. -/

namespace Sys2Proof.Machine

theorem fetch_ok {s : State} (h : s.pc.toNat ≤ 4094) : fetch s = .ok s.wordAtPc :=
  if_pos ((inRange_iff _ _).2 (.inr (by omega)))

theorem fetch_error {s : State} (h : 4094 < s.pc.toNat) : fetch s = .error .boundsViolation :=
  if_neg fun hr => by rcases (inRange_iff _ _).1 hr with h0 | h1 <;> omega

theorem unlessFaulted_none {s : State} (h : s.fault = none) (op : State → Outcome) :
    unlessFaulted s op = op s := by unfold unlessFaulted; rw [h]

theorem unlessFaulted_some {s : State} {f : Fault} (h : s.fault = some f) (op : State → Outcome) :
    unlessFaulted s op = .next { s with toneEvent := false } := by unfold unlessFaulted; rw [h]

/-- Everything an operation that waits for no fault can answer. -/
theorem unlessFaulted_cases {s t : State} {op : State → Outcome} (h : unlessFaulted s op = .next t) :
    (s.fault ≠ none ∧ t = { s with toneEvent := false }) ∨ (s.fault = none ∧ op s = .next t) := by
  by_cases hn : s.fault = none
  · rw [unlessFaulted_none hn] at h; exact .inr ⟨hn, h⟩
  · obtain ⟨f, hf⟩ := Option.ne_none_iff_exists'.1 hn
    rw [unlessFaulted_some hf] at h
    injection h with h
    exact .inl ⟨hn, h.symm⟩

/-- A tick of an unfaulted machine whose next instruction is i is that instruction. -/
theorem tick_of_nextInstr {s : State} {i : Instr} (hf : s.fault = none) (h : s.nextInstr = some i) :
    tick s = exec i s := by
  unfold State.nextInstr at h
  split at h
  · next hp =>
    simp only [tick, unlessFaulted_none hf, fetch_ok hp, attempt_ok, dispatch, h]
  · cases h

/-- A tick of an unfaulted machine that fetches the word of i is i. -/
theorem tick_of_fetch {s : State} {w : Word} {i : Instr} (hf : s.fault = none) (h : fetch s = .ok w)
    (hd : decodeWord w = some i) : tick s = exec i s := by
  simp only [tick, unlessFaulted_none hf, h, attempt_ok, dispatch, hd]

/-- Memory after bytes were written in turn, in the terms of the claims. -/
theorem State.peek_pokeBytes_afterStore {s : State} {bytes : List Byte} {a : Nat} {byte : Nat → Byte}
    (hwf : Memory.wf s.cfg.font s.mem = true) (ha : a + bytes.length ≤ 4096)
    (hb : ∀ (k : Nat) (hk : k < bytes.length), bytes[k] = byte k) (c : Nat) :
    (State.pokeBytes a bytes s).peek c = s.afterStore a bytes.length byte c := by
  rw [State.peek_pokeBytes hwf _ _ ha]
  unfold State.afterStore
  by_cases h : a ≤ c ∧ c < a + bytes.length
  · rw [dif_pos h, if_pos h, hb]
  · rw [dif_neg h, if_neg h]

/-- Everything a tick can answer: nothing done because a fault is latched; a fetch outside memory; a
word that is no instruction; or the instruction at PC (`40_cycle.md` rules R65 to R71). -/
theorem tick_cases {s t : State} (h : tick s = .next t) :
    (s.fault ≠ none ∧ t = { s with toneEvent := false }) ∨
    (s.fault = none ∧ 4094 < s.pc.toNat ∧ t = s.latch .boundsViolation) ∨
    (s.fault = none ∧ s.pc.toNat ≤ 4094 ∧ decodeWord s.wordAtPc = none ∧
      t = s.latch (.unimplementedOpcode s.wordAtPc)) ∨
    (s.fault = none ∧ ∃ i, s.nextInstr = some i ∧ exec i s = .next t) := by
  rcases unlessFaulted_cases h with h | ⟨hf, h⟩
  · exact .inl h
  · by_cases hp : s.pc.toNat ≤ 4094
    · rw [fetch_ok hp, attempt_ok] at h
      cases hd : decodeWord s.wordAtPc with
      | none =>
        simp only [dispatch, hd, attempt_error] at h
        injection h with h
        exact .inr (.inr (.inl ⟨hf, hp, rfl, h.symm⟩))
      | some i =>
        simp only [dispatch, hd, attempt_ok] at h
        exact .inr (.inr (.inr ⟨hf, i, by simp [State.nextInstr, hp, hd], h⟩))
    · rw [fetch_error (by omega), attempt_error] at h
      injection h with h
      exact .inr (.inl ⟨hf, by omega, h.symm⟩)

/-- The port release changes only the port. -/
theorem releaseRnd_next {o : Outcome} {t : State} (h : releaseRnd o = .next t) :
    ∃ u, o = .next u ∧ t = { u with rnd := none } := by
  cases o with
  | next u => injection h with h; exact ⟨u, rfl, h.symm⟩
  | fault f => cases h
  | refused r => cases h

/-- Everything one step can be: a tick when the host ticks for ever, or one command of the host (the first one
waiting, none because the schedule has ended, or the next of the free schedule) with it taken. -/
theorem step_cases {s t : State} (h : step s = .next t) :
    (s.pending = [] ∧ s.tail = .ticking ∧ tick s = .next t) ∨
      ∃ c commands served, perform c (s.withSchedule commands s.tail served) = .next t := by
  unfold step serve at h
  split at h
  · next c rest _ => exact .inr ⟨c, rest, s.served, h⟩
  · next hp =>
    split at h
    · exact .inr ⟨.none, s.pending, s.served, h⟩
    · next ht => exact .inl ⟨hp, ht, h⟩
    · exact .inr ⟨Config.freeCommand s.served, s.pending, s.served + 1, h⟩

theorem step_of_command {s : State} {c : Command} {rest : List Command} (h : s.pending = c :: rest) :
    step s = perform c { s with pending := rest } := by
  unfold step serve; rw [h]

theorem step_of_ended {s : State} (h : s.pending = []) (ht : s.tail = .ended) :
    step s = perform .none s := by
  unfold step serve; rw [h]; simp only [ht]

theorem step_of_ticking {s : State} (h : s.pending = []) (ht : s.tail = .ticking) : step s = tick s := by
  unfold step serve; rw [h]; simp only [ht]

theorem step_of_free {s : State} (h : s.pending = []) (ht : s.tail = .free) :
    step s = perform (Config.freeCommand s.served) { s with served := s.served + 1 } := by
  unfold step serve; rw [h]; simp only [ht]

/-- A countdown never goes below 0 (`60_exceptions.md` rules R161, R162). -/
theorem countDown_toNat (t : Byte) : (countDown t).toNat = t.toNat - 1 := by
  unfold countDown
  by_cases h : t = 0
  · subst h; rfl
  · have hpos : t.toNat ≠ 0 := fun e => h (BitVec.eq_of_toNat_eq (by simpa using e))
    rw [if_neg h, BitVec.toNat_sub]
    have := t.isLt
    have h1 : (1 : Byte).toNat = 1 := rfl
    rw [h1]; omega

end Sys2Proof.Machine
end

