-- ==== Sys2Proof/Laws/Exec.lean ====
section
/-! SUPPORT. The one shape every instruction has: a handler that answers what it would write and the PC
it would leave, or a fatal condition; then the end of the tick. Whole-machine proofs split the handler, not
the meanings. -/

namespace Sys2Proof.Machine

/-- What each handler would write and where it would leave PC, or its own fatal condition
(`40_cycle.md` rule R69). -/
def handler (i : Instr) (s : State) : Except Fault (State × Nat) :=
  match i with
  | .cls => .ok ({ s with display := blankDisplay }, s.npc)
  | .ret => s.pop.map fun p => (p.2, p.1.toNat)
  | .jp nnn => .ok (s, (addrWord nnn).toNat)
  | .call nnn => (s.push (BitVec.ofNat 16 s.npc)).map fun t => (t, (addrWord nnn).toNat)
  | .seImm x nn => .ok (s, if s.readV x == nn then s.npc + 2 else s.npc)
  | .sneImm x nn => .ok (s, if s.readV x != nn then s.npc + 2 else s.npc)
  | .seReg x y => .ok (s, if s.readV x == s.readV y then s.npc + 2 else s.npc)
  | .ldImm x nn => .ok (s.writeV x nn, s.npc)
  | .addImm x nn => .ok (s.writeV x (s.readV x + nn), s.npc)
  | .ldReg x y => .ok (s.writeV x (s.readV y), s.npc)
  | .orReg x y => .ok (s.writeV x (s.readV x ||| s.readV y), s.npc)
  | .andReg x y => .ok (s.writeV x (s.readV x &&& s.readV y), s.npc)
  | .xorReg x y => .ok (s.writeV x (s.readV x ^^^ s.readV y), s.npc)
  | .addReg x y =>
    .ok (s.writeFlagged x (s.readV x + s.readV y) (carryOut (s.readV x) (s.readV y)), s.npc)
  | .subReg x y =>
    .ok (s.writeFlagged x (s.readV x - s.readV y) (noBorrow (s.readV x) (s.readV y)), s.npc)
  | .shr x => .ok (s.writeFlagged x (s.readV x >>> 1) (droppedLow (s.readV x)), s.npc)
  | .subnReg x y =>
    .ok (s.writeFlagged x (s.readV y - s.readV x) (noBorrow (s.readV y) (s.readV x)), s.npc)
  | .shl x => .ok (s.writeFlagged x (s.readV x <<< 1) (droppedHigh (s.readV x)), s.npc)
  | .sneReg x y => .ok (s, if s.readV x != s.readV y then s.npc + 2 else s.npc)
  | .ldI nnn => .ok ({ s with i := addrWord nnn }, s.npc)
  | .jpV0 nnn => .ok (s, (byteWord (s.readV 0)).toNat + (addrWord nnn).toNat)
  | .rnd x nn => .ok ({ s.writeV x (s.rndByte &&& nn) with draws := s.draws + 1 }, s.npc)
  | .drw x y n => (s.memRead s.i.toNat n.toNat).map fun rows =>
      let drawn := drawSprite s.cfg.draw (s.readV x).toNat (s.readV y).toNat rows s.display
      (State.writeV { s with display := drawn.1 } VF (flagByte drawn.2), s.npc)
  | .skp x => (keyIndex (s.readV x)).map fun k => (s, if s.keys[k] then s.npc + 2 else s.npc)
  | .sknp x => (keyIndex (s.readV x)).map fun k => (s, if !s.keys[k] then s.npc + 2 else s.npc)
  | .ldVxDt x => .ok (s.writeV x s.dt, s.npc)
  | .ldVxKey x =>
    match highestKey s.keys with
    | some k => .ok (s.writeV x (BitVec.ofNat 8 k), s.npc)
    | none => .ok (s, s.npc - 2)
  | .ldDtVx x => .ok ({ s with dt := s.readV x }, s.npc)
  | .ldStVx x => .ok ({ s with st := s.readV x }, s.npc)
  | .addI x => .ok ({ s with i := s.i + byteWord (s.readV x) }, s.npc)
  | .ldFont x => (glyphAddress (s.readV x)).map fun a => ({ s with i := a }, s.npc)
  | .ldBcd x => (s.memWrite s.i.toNat (bcdDigits s.cfg.bcd (s.readV x))).map fun t => (t, s.npc)
  | .storeRegs x => (s.memWrite s.i.toNat (s.firstRegs (x.toNat + 1))).map fun t => (t, s.npc)
  | .loadRegs x =>
    (s.memRead s.i.toNat (x.toNat + 1)).map fun bytes => (State.writeRegsFrom 0 bytes s, s.npc)

theorem attempt_map {α β : Type} (s : State) (r : Except Fault α) (g : α → β) (k : β → Outcome) :
    attempt s (r.map g) k = attempt s r fun x => k (g x) := by cases r <;> rfl

/-- Every instruction is its handler and then the end of the tick. -/
theorem exec_eq_handler (i : Instr) (s : State) :
    exec i s = attempt s (handler i s) fun r => finish s r.1 r.2 := by
  cases i
  case ldVxKey x =>
    cases hk : highestKey s.keys <;> simp only [exec, execLdVxKey, handler, hk] <;> rfl
  all_goals
    simp only [handler, attempt_map]
    rfl

/-- Everything an instruction can answer: its handler's own fatal condition, a bounds violation at the end
of the tick, or the commit of what the handler would write. -/
theorem exec_cases {i : Instr} {s t : State} (h : exec i s = .next t) :
    (∃ f, handler i s = .error f ∧ t = s.latch f) ∨
    (∃ a pc', handler i s = .ok (a, pc') ∧ 4095 < pc' ∧ t = s.latch .boundsViolation) ∨
    (∃ a pc', handler i s = .ok (a, pc') ∧ pc' ≤ 4095 ∧
      t = { a with pc := BitVec.ofNat 16 pc', toneEvent := false }) := by
  rw [exec_eq_handler] at h
  rcases attempt_cases h with ⟨⟨a, pc'⟩, hr, hf⟩ | ⟨f, hr, rfl⟩
  · rcases finish_cases hf with ⟨hp, rfl⟩ | ⟨hp, rfl⟩
    · exact .inr (.inr ⟨a, pc', hr, hp, rfl⟩)
    · exact .inr (.inl ⟨a, pc', hr, hp, rfl⟩)
  · exact .inl ⟨f, hr, rfl⟩

/-- A handler's answer through a mapped check. -/
theorem map_eq_ok {α β : Type} {r : Except Fault α} {g : α → β} {b : β} (h : r.map g = .ok b) :
    ∃ x, r = .ok x ∧ g x = b := by
  cases r with
  | ok x => exact ⟨x, rfl, by injection h⟩
  | error f => cases h

/-- A mapped check fails only as the check does. -/
theorem map_eq_error {α β : Type} {r : Except Fault α} {g : α → β} {f : Fault} (h : r.map g = .error f) :
    r = .error f := by
  cases r with
  | ok x => cases h
  | error f' => injection h with h; rw [h]

/-- No handler writes the fault latch, the keys, the configuration, the host's schedule or the input port. -/
theorem handler_keeps {i : Instr} {s a : State} {pc' : Nat} (h : handler i s = .ok (a, pc')) :
    a.fault = s.fault ∧ a.keys = s.keys ∧ a.cfg = s.cfg ∧ a.pending = s.pending ∧ a.rnd = s.rnd ∧
      a.tail = s.tail ∧ a.served = s.served := by
  cases i <;> simp only [handler] at h
  case ret =>
    obtain ⟨p, hp, he⟩ := map_eq_ok h
    obtain ⟨k, _, _, rfl⟩ := State.pop_eq_ok hp
    injection he with he
    subst he
    exact ⟨rfl, rfl, rfl, rfl, rfl, rfl, rfl⟩
  case call =>
    obtain ⟨p, hp, he⟩ := map_eq_ok h
    obtain ⟨_, rfl⟩ := State.push_eq_ok hp
    injection he with he
    subst he
    exact ⟨rfl, rfl, rfl, rfl, rfl, rfl, rfl⟩
  case ldVxKey =>
    split at h <;> injection h with h <;> injection h with h _ <;> subst h <;> exact ⟨rfl, rfl, rfl, rfl, rfl, rfl, rfl⟩
  case ldBcd | storeRegs =>
    obtain ⟨t, ht, he⟩ := map_eq_ok h
    obtain ⟨rfl, _⟩ := State.memWrite_eq_ok ht
    injection he with he
    subst he
    simp
  case drw | skp | sknp | ldFont | loadRegs =>
    obtain ⟨x, _, he⟩ := map_eq_ok h
    injection he with he
    subst he
    simp
  all_goals
    injection h with h
    injection h with h
    subst h
    exact ⟨rfl, rfl, rfl, rfl, rfl, rfl, rfl⟩

/-- Where a handler that commits leaves PC (`40_cycle.md` rule R69). -/
theorem handler_pc {i : Instr} {s a : State} {pc' : Nat} (h : handler i s = .ok (a, pc')) :
    (i.op ∉ instrsWritingPc → pc' = s.npc) ∧
    (i.op ∈ instrsSkipping → pc' = s.npc ∨ pc' = s.npc + 2) ∧
    (i.op = .ldVxKey → pc' = s.pc.toNat ∨ pc' = s.npc) := by
  cases i <;> simp only [handler] at h <;> simp [Instr.op, instrsWritingPc, instrsSkipping]
  case ldVxKey =>
    split at h <;> injection h with h <;> injection h with _ h <;> subst h
    · exact .inr rfl
    · exact .inl rfl
  case skp | sknp =>
    obtain ⟨_, _, he⟩ := map_eq_ok h
    injection he with _ he
    subst he
    split <;> simp
  case drw | ldFont | ldBcd | storeRegs | loadRegs =>
    obtain ⟨_, _, he⟩ := map_eq_ok h
    injection he with _ he
    exact he.symm
  case seImm | sneImm | seReg | sneReg =>
    injection h with h
    injection h with _ h
    subst h
    split <;> simp
  all_goals
    injection h with h
    injection h with _ h
    exact h.symm

/-- The only fatal conditions a handler of its own raises (`60_exceptions.md` rules R151 to R153). -/
theorem handler_error_cases {i : Instr} {s : State} {f : Fault} (h : handler i s = .error f) :
    f = .boundsViolation ∨ (f = .stackExhaustion ∧ s.sp.val = 16 ∧ ∃ nnn, i = .call nnn) ∨
      (f = .stackUnderflow ∧ s.sp.val = 0 ∧ i = .ret) := by
  cases i <;> simp only [handler] at h
  case ret => exact .inr (.inr ⟨(State.pop_eq_error (map_eq_error h)).1, (State.pop_eq_error (map_eq_error h)).2, rfl⟩)
  case call nnn =>
    exact .inr (.inl ⟨(State.push_eq_error (map_eq_error h)).1, (State.push_eq_error (map_eq_error h)).2, nnn, rfl⟩)
  case ldVxKey => split at h <;> cases h
  case drw | loadRegs => exact .inl (State.memRead_eq_error (map_eq_error h))
  case skp | sknp => exact .inl (keyIndex_eq_error (map_eq_error h))
  case ldFont => exact .inl (glyphAddress_eq_error (map_eq_error h))
  case ldBcd | storeRegs => exact .inl (State.memWrite_eq_error (map_eq_error h)).1
  all_goals cases h

end Sys2Proof.Machine
end

