-- ==== Sys2Proof/Laws/PerInstr.lean ====
section
/-! SUPPORT. The per-instruction family FitsTableRow: every instruction is well formed, and its word has
every fixed digit of its row of `30_encoding.md` rule R54. -/

namespace Sys2Proof.Laws.FitsTableRow

/-- The operands fit their fields and the word selects the instruction's own row. -/
def Statement (i : Instr) : Prop := i.wellFormed = true ∧ i.op.selectedBy (encodeWord i) = true

theorem nibble_and_ones (c : Nibble) : c &&& 0xF#4 = c := BitVec.and_allOnes

theorem byte_and_ones (c : Byte) : c &&& 0xFF#8 = c := BitVec.and_allOnes

theorem mask_address (c : Nibble) (nnn : Addr) : (c ++ nnn : Word) &&& 0xF000#16 = c ++ 0#12 := by
  rw [show (0xF000#16 : Word) = (0xF#4 ++ 0#12) from rfl, BitVec.and_append, nibble_and_ones]
  simp

theorem mask_immediate (c : Nibble) (x : Reg) (nn : Byte) :
    (c ++ x ++ nn : Word) &&& 0xF000#16 = c ++ 0#4 ++ 0#8 := by
  rw [show (0xF000#16 : Word) = (0xF#4 ++ 0#4 ++ 0#8) from rfl, BitVec.and_append, BitVec.and_append,
    nibble_and_ones]
  simp

theorem mask_sprite (c : Nibble) (x y : Reg) (n : Nibble) :
    (c ++ x ++ y ++ n : Word) &&& 0xF000#16 = c ++ 0#4 ++ 0#4 ++ 0#4 := by
  rw [show (0xF000#16 : Word) = (0xF#4 ++ 0#4 ++ 0#4 ++ 0#4) from rfl, BitVec.and_append,
    BitVec.and_append, BitVec.and_append, nibble_and_ones]
  simp

theorem mask_registers (c : Nibble) (x y : Reg) (n : Nibble) :
    (c ++ x ++ y ++ n : Word) &&& 0xF00F#16 = c ++ 0#4 ++ 0#4 ++ n := by
  rw [show (0xF00F#16 : Word) = (0xF#4 ++ 0#4 ++ 0#4 ++ 0xF#4) from rfl, BitVec.and_append,
    BitVec.and_append, BitVec.and_append, nibble_and_ones, nibble_and_ones]
  simp

theorem mask_shift (c : Nibble) (x : Reg) (k : Byte) :
    (c ++ x ++ k : Word) &&& 0xF00F#16 = c ++ 0#4 ++ (k &&& 0x0F#8) := by
  rw [show (0xF00F#16 : Word) = (0xF#4 ++ 0#4 ++ 0x0F#8) from rfl, BitVec.and_append,
    BitVec.and_append, nibble_and_ones]
  simp

theorem mask_suffix (c : Nibble) (x : Reg) (k : Byte) :
    (c ++ x ++ k : Word) &&& 0xF0FF#16 = c ++ 0#4 ++ k := by
  rw [show (0xF0FF#16 : Word) = (0xF#4 ++ 0#4 ++ 0xFF#8) from rfl, BitVec.and_append,
    BitVec.and_append, nibble_and_ones, byte_and_ones]
  simp

/-- A row is selected when the masked word is its pattern. -/
theorem selected {o : Op} {w p : Word} (h : w &&& o.mask = p) (hp : p = o.pattern) :
    o.selectedBy w = true := beq_iff_eq.2 (h.trans hp)

/-- The operand check of a format, once the values fit. -/
theorem fitsFields_cons {w n : Nat} {ws ns : List Nat} (h : n < 2 ^ w) (hs : fitsFields ws ns = true) :
    fitsFields (w :: ws) (n :: ns) = true := by
  simp only [fitsFields, hs, Bool.and_true]; exact decide_eq_true h

theorem fitsFields_nil : fitsFields [] [] = true := rfl

theorem cls : Statement .cls := ⟨rfl, rfl⟩
theorem ret : Statement .ret := ⟨rfl, rfl⟩
theorem jp (nnn : Addr) : Statement (.jp nnn) := ⟨fitsFields_cons nnn.isLt fitsFields_nil, selected (mask_address ..) rfl⟩
theorem call (nnn : Addr) : Statement (.call nnn) := ⟨fitsFields_cons nnn.isLt fitsFields_nil, selected (mask_address ..) rfl⟩
theorem seImm (x : Reg) (nn : Byte) : Statement (.seImm x nn) := ⟨fitsFields_cons x.isLt (fitsFields_cons nn.isLt fitsFields_nil), selected (mask_immediate ..) rfl⟩
theorem sneImm (x : Reg) (nn : Byte) : Statement (.sneImm x nn) := ⟨fitsFields_cons x.isLt (fitsFields_cons nn.isLt fitsFields_nil), selected (mask_immediate ..) rfl⟩
theorem seReg (x : Reg) (y : Reg) : Statement (.seReg x y) := ⟨fitsFields_cons x.isLt (fitsFields_cons y.isLt fitsFields_nil), selected (mask_registers ..) rfl⟩
theorem ldImm (x : Reg) (nn : Byte) : Statement (.ldImm x nn) := ⟨fitsFields_cons x.isLt (fitsFields_cons nn.isLt fitsFields_nil), selected (mask_immediate ..) rfl⟩
theorem addImm (x : Reg) (nn : Byte) : Statement (.addImm x nn) := ⟨fitsFields_cons x.isLt (fitsFields_cons nn.isLt fitsFields_nil), selected (mask_immediate ..) rfl⟩
theorem ldReg (x : Reg) (y : Reg) : Statement (.ldReg x y) := ⟨fitsFields_cons x.isLt (fitsFields_cons y.isLt fitsFields_nil), selected (mask_registers ..) rfl⟩
theorem orReg (x : Reg) (y : Reg) : Statement (.orReg x y) := ⟨fitsFields_cons x.isLt (fitsFields_cons y.isLt fitsFields_nil), selected (mask_registers ..) rfl⟩
theorem andReg (x : Reg) (y : Reg) : Statement (.andReg x y) := ⟨fitsFields_cons x.isLt (fitsFields_cons y.isLt fitsFields_nil), selected (mask_registers ..) rfl⟩
theorem xorReg (x : Reg) (y : Reg) : Statement (.xorReg x y) := ⟨fitsFields_cons x.isLt (fitsFields_cons y.isLt fitsFields_nil), selected (mask_registers ..) rfl⟩
theorem addReg (x : Reg) (y : Reg) : Statement (.addReg x y) := ⟨fitsFields_cons x.isLt (fitsFields_cons y.isLt fitsFields_nil), selected (mask_registers ..) rfl⟩
theorem subReg (x : Reg) (y : Reg) : Statement (.subReg x y) := ⟨fitsFields_cons x.isLt (fitsFields_cons y.isLt fitsFields_nil), selected (mask_registers ..) rfl⟩
theorem shr (x : Reg) : Statement (.shr x) := ⟨fitsFields_cons x.isLt fitsFields_nil, selected (mask_shift ..) rfl⟩
theorem subnReg (x : Reg) (y : Reg) : Statement (.subnReg x y) := ⟨fitsFields_cons x.isLt (fitsFields_cons y.isLt fitsFields_nil), selected (mask_registers ..) rfl⟩
theorem shl (x : Reg) : Statement (.shl x) := ⟨fitsFields_cons x.isLt fitsFields_nil, selected (mask_shift ..) rfl⟩
theorem sneReg (x : Reg) (y : Reg) : Statement (.sneReg x y) := ⟨fitsFields_cons x.isLt (fitsFields_cons y.isLt fitsFields_nil), selected (mask_registers ..) rfl⟩
theorem ldI (nnn : Addr) : Statement (.ldI nnn) := ⟨fitsFields_cons nnn.isLt fitsFields_nil, selected (mask_address ..) rfl⟩
theorem jpV0 (nnn : Addr) : Statement (.jpV0 nnn) := ⟨fitsFields_cons nnn.isLt fitsFields_nil, selected (mask_address ..) rfl⟩
theorem rnd (x : Reg) (nn : Byte) : Statement (.rnd x nn) := ⟨fitsFields_cons x.isLt (fitsFields_cons nn.isLt fitsFields_nil), selected (mask_immediate ..) rfl⟩
theorem drw (x : Reg) (y : Reg) (n : Nibble) : Statement (.drw x y n) := ⟨fitsFields_cons x.isLt (fitsFields_cons y.isLt (fitsFields_cons n.isLt fitsFields_nil)), selected (mask_sprite ..) rfl⟩
theorem skp (x : Reg) : Statement (.skp x) := ⟨fitsFields_cons x.isLt fitsFields_nil, selected (mask_suffix ..) rfl⟩
theorem sknp (x : Reg) : Statement (.sknp x) := ⟨fitsFields_cons x.isLt fitsFields_nil, selected (mask_suffix ..) rfl⟩
theorem ldVxDt (x : Reg) : Statement (.ldVxDt x) := ⟨fitsFields_cons x.isLt fitsFields_nil, selected (mask_suffix ..) rfl⟩
theorem ldVxKey (x : Reg) : Statement (.ldVxKey x) := ⟨fitsFields_cons x.isLt fitsFields_nil, selected (mask_suffix ..) rfl⟩
theorem ldDtVx (x : Reg) : Statement (.ldDtVx x) := ⟨fitsFields_cons x.isLt fitsFields_nil, selected (mask_suffix ..) rfl⟩
theorem ldStVx (x : Reg) : Statement (.ldStVx x) := ⟨fitsFields_cons x.isLt fitsFields_nil, selected (mask_suffix ..) rfl⟩
theorem addI (x : Reg) : Statement (.addI x) := ⟨fitsFields_cons x.isLt fitsFields_nil, selected (mask_suffix ..) rfl⟩
theorem ldFont (x : Reg) : Statement (.ldFont x) := ⟨fitsFields_cons x.isLt fitsFields_nil, selected (mask_suffix ..) rfl⟩
theorem ldBcd (x : Reg) : Statement (.ldBcd x) := ⟨fitsFields_cons x.isLt fitsFields_nil, selected (mask_suffix ..) rfl⟩
theorem storeRegs (x : Reg) : Statement (.storeRegs x) := ⟨fitsFields_cons x.isLt fitsFields_nil, selected (mask_suffix ..) rfl⟩
theorem loadRegs (x : Reg) : Statement (.loadRegs x) := ⟨fitsFields_cons x.isLt fitsFields_nil, selected (mask_suffix ..) rfl⟩

end Sys2Proof.Laws.FitsTableRow
end

