-- ==== Sys2Proof/Laws/Schedule.lean ====
section
/-! SUPPORT. The schedule decides which command comes next and nothing else: every operation does the same
under any schedule and leaves the schedule as it is (`00_scope.md` rules R3, R4). -/

namespace Sys2Proof.Machine

variable (commands : List Command) (tail : HostTail) (served : Nat)

/-! ### Operations over memory and registers -/

theorem State.peekBytes_withSchedule (n a : Nat) (s : State) :
    (s.withSchedule commands tail served).peekBytes a n = s.peekBytes a n := by
  induction n generalizing a with
  | zero => rfl
  | succ n ih => simp only [State.peekBytes, ih]; rfl

theorem State.memRead_withSchedule (a n : Nat) (s : State) :
    (s.withSchedule commands tail served).memRead a n = s.memRead a n := by
  unfold State.memRead
  rw [State.peekBytes_withSchedule]

theorem State.pokeBytes_withSchedule (bytes : List Byte) (a : Nat) (s : State) :
    State.pokeBytes a bytes (s.withSchedule commands tail served) =
      (State.pokeBytes a bytes s).withSchedule commands tail served := by
  induction bytes generalizing a s with
  | nil => rfl
  | cons b bs ih => exact ih (a + 1) (s.poke a b)

theorem State.memWrite_withSchedule (bytes : List Byte) (a : Nat) (s : State) :
    (s.withSchedule commands tail served).memWrite a bytes =
      (s.memWrite a bytes).map (State.withSchedule · commands tail served) := by
  unfold State.memWrite
  split
  · rw [State.pokeBytes_withSchedule]; rfl
  · rfl

theorem State.writeRegsFrom_withSchedule (bytes : List Byte) (k : Nat) (s : State) :
    State.writeRegsFrom k bytes (s.withSchedule commands tail served) =
      (State.writeRegsFrom k bytes s).withSchedule commands tail served := by
  induction bytes generalizing k s with
  | nil => rfl
  | cons b bs ih => exact ih (k + 1) (s.writeV (BitVec.ofNat 4 k) b)

theorem State.push_withSchedule (w : Word) (s : State) :
    (s.withSchedule commands tail served).push w =
      (s.push w).map (State.withSchedule · commands tail served) := by
  by_cases h : s.sp.val < 16
  · rw [State.push_ok w h, State.push_ok (s := s.withSchedule commands tail served) w h]; rfl
  · rw [State.push_error w h, State.push_error (s := s.withSchedule commands tail served) w h]; rfl

theorem State.pop_withSchedule (s : State) :
    (s.withSchedule commands tail served).pop =
      s.pop.map fun r => (r.1, r.2.withSchedule commands tail served) := by
  obtain ⟨v, i, pc, stack, ⟨n, hn⟩, _⟩ := s
  cases n <;> rfl

/-! ### The machine's operations -/

/-- A handler does the same under any schedule. -/
theorem handler_withSchedule (i : Instr) (s : State) :
    handler i (s.withSchedule commands tail served) =
      (handler i s).map fun r => (r.1.withSchedule commands tail served, r.2) := by
  cases i
  case call =>
    simp only [handler, State.push_withSchedule]
    show Except.map _ (Except.map _ (s.push (BitVec.ofNat 16 s.npc))) = _
    cases s.push (BitVec.ofNat 16 s.npc) <;> rfl
  case ret => simp only [handler, State.pop_withSchedule]; cases s.pop <;> rfl
  case drw _ _ n =>
    simp only [handler, State.memRead_withSchedule]
    show Except.map _ (s.memRead s.i.toNat n.toNat) = _
    cases s.memRead s.i.toNat n.toNat <;> rfl
  case skp x | sknp x =>
    show Except.map _ (keyIndex (s.readV x)) = _
    simp only [handler]
    cases keyIndex (s.readV x) <;> rfl
  case ldFont x =>
    show Except.map _ (glyphAddress (s.readV x)) = _
    simp only [handler]
    cases glyphAddress (s.readV x) <;> rfl
  case ldVxKey => simp only [handler, State.withSchedule_keys]; cases highestKey s.keys <;> rfl
  case ldBcd x =>
    simp only [handler, State.memWrite_withSchedule]
    show Except.map _ (Except.map _ (s.memWrite s.i.toNat (bcdDigits s.cfg.bcd (s.readV x)))) = _
    cases s.memWrite s.i.toNat (bcdDigits s.cfg.bcd (s.readV x)) <;> rfl
  case storeRegs x =>
    simp only [handler, State.memWrite_withSchedule]
    show Except.map _ (Except.map _ (s.memWrite s.i.toNat (s.firstRegs (x.toNat + 1)))) = _
    cases s.memWrite s.i.toNat (s.firstRegs (x.toNat + 1)) <;> rfl
  case loadRegs x =>
    simp only [handler, State.memRead_withSchedule, State.writeRegsFrom_withSchedule]
    show Except.map _ (s.memRead s.i.toNat (x.toNat + 1)) = _
    cases s.memRead s.i.toNat (x.toNat + 1) <;> rfl
  all_goals rfl

/-- An instruction does the same under any schedule. -/
theorem exec_withSchedule {i : Instr} {s t : State} (h : exec i s = .next t) :
    exec i (s.withSchedule commands tail served) = .next (t.withSchedule commands tail served) := by
  rw [exec_eq_handler] at h ⊢
  rw [handler_withSchedule, attempt_map]
  cases hh : handler i s with
  | error f => rw [hh] at h; injection h with h; subst h; rfl
  | ok r =>
    rw [hh, attempt_ok] at h
    rw [attempt_ok]
    rcases finish_cases h with ⟨hp, rfl⟩ | ⟨hp, rfl⟩
    · exact finish_ok hp
    · exact finish_bad hp

/-- What a faulted machine answers, under any schedule. -/
theorem unlessFaulted_withSchedule {s t : State} {op : State → Outcome}
    (hop : op s = .next t →
      op (s.withSchedule commands tail served) = .next (t.withSchedule commands tail served))
    (h : unlessFaulted s op = .next t) :
    unlessFaulted (s.withSchedule commands tail served) op =
      .next (t.withSchedule commands tail served) := by
  rcases unlessFaulted_cases h with ⟨hf, rfl⟩ | ⟨hf, h⟩
  · obtain ⟨f, hf⟩ := Option.ne_none_iff_exists'.1 hf
    exact unlessFaulted_some (s := s.withSchedule commands tail served) hf _
  · exact (unlessFaulted_none (s := s.withSchedule commands tail served) hf _).trans (hop h)

/-- A tick does the same under any schedule. -/
theorem tick_withSchedule {s t : State} (h : tick s = .next t) :
    tick (s.withSchedule commands tail served) = .next (t.withSchedule commands tail served) := by
  refine unlessFaulted_withSchedule commands tail served (fun h => ?_) h
  change attempt _ (fetch s) _ = _
  cases hw : fetch s with
  | error f => rw [hw] at h; injection h with h; subst h; rfl
  | ok w =>
    rw [hw, attempt_ok] at h
    rw [attempt_ok]
    cases hi : dispatch w with
    | error f => rw [hi] at h; injection h with h; subst h; rfl
    | ok i =>
      rw [hi] at h
      exact exec_withSchedule commands tail served h

/-- A command of the host does the same under any schedule. -/
theorem perform_withSchedule {c : Command} {s t : State} (h : perform c s = .next t) :
    perform c (s.withSchedule commands tail served) = .next (t.withSchedule commands tail served) := by
  cases c with
  | tick b =>
    obtain ⟨u, hu, rfl⟩ := releaseRnd_next h
    exact congrArg releaseRnd (tick_withSchedule commands tail served hu)
  | tickTimers | keypress =>
    exact unlessFaulted_withSchedule commands tail served
      (fun h => by injection h with h; subst h; rfl) h
  | load bytes =>
    refine unlessFaulted_withSchedule commands tail served (fun h => ?_) h
    simp only [load, State.memWrite_withSchedule, attempt_map] at h ⊢
    rcases attempt_cases h with ⟨x, hx, h⟩ | ⟨f, he, rfl⟩
    · injection h with h; subst h; rw [hx]; rfl
    · rw [he]; rfl
  | reset | none => injection h with h; subst h; rfl

/-- A tick leaves the schedule as it is. -/
theorem tick_keeps_schedule {s t : State} (h : tick s = .next t) :
    t.withSchedule s.pending s.tail s.served = t := by
  have hs := tick_withSchedule s.pending s.tail s.served h
  rw [State.withSchedule_self, h] at hs
  injection hs with hs
  exact hs.symm

/-- A command of the host leaves the schedule as it is. -/
theorem perform_keeps_schedule {c : Command} {s t : State} (h : perform c s = .next t) :
    t.withSchedule s.pending s.tail s.served = t := by
  have hs := perform_withSchedule s.pending s.tail s.served h
  rw [State.withSchedule_self, h] at hs
  injection hs with hs
  exact hs.symm

/-! ### Runs -/

/-- A run of one step more is the step and then the run. -/
theorem core_run_succ {s t : State} (k : Nat) (h : step s = .next t) :
    Sys2Proof.core.run (k + 1) s = Sys2Proof.core.run k t := by
  have run_succ (M : Host.Core) (s t : M.State) (h : M.step s = .next t) : M.run (k + 1) s = M.run k t := by
    simp only [Host.Core.run, h]
  exact run_succ Sys2Proof.core s t h

end Sys2Proof.Machine
end

