-- ==== Sys2Proof/Tests/Slice0.lean ====
section
/-! SUPPORT. Tests of the model's own author: what the spec says of single words and single steps.
`S<n>` and `T<n>` are the vectors of `95_test_vectors.md`; the expected values are theirs. Then one
witness per statement that has hypotheses: a concrete state and operands that meet them together. -/

namespace Sys2Proof.Tests

open Sys2Proof Sys2Proof.Machine

/-! ### Helpers -/

/-- The machine right after reset, its host ticking for ever (log entry 5). -/
def ready : State := { State.reset with tail := .ticking }

/-- Registers set. -/
def setRegs : List (Reg × Byte) → State → State
  | [], s => s
  | (r, b) :: rs, s => setRegs rs (s.writeV r b)

/-- The word at address a. -/
def wordAt (a : Nat) (w : Word) (s : State) : State := State.pokeBytes a [highByte w, lowByte w] s

/-- A step answers a next state with the property. -/
def stepGives (s : State) (p : State → Bool) : Bool :=
  match step s with
  | .next t => p t
  | .fault _ => false
  | .refused _ => false

/-- From `base` with the word at PC 0x200, one step answers an unfaulted next state with the property. -/
def runs (w : Word) (base : State) (p : State → Bool) : Bool :=
  stepGives (wordAt 0x200 w base) fun t => t.fault == none && p t

/-- From `base` with the word at PC 0x200, one step raises f and changes nothing else. -/
def traps (w : Word) (base : State) (f : Fault) : Bool :=
  stepGives (wordAt 0x200 w base) fun t => t == (wordAt 0x200 w base).latch f

/-- One command of the host on `base` answers a next state with the property. -/
def command (c : Command) (base : State) (p : State → Bool) : Bool := stepGives (base.issue c) p

/-- The state of an answer. -/
def stateOf : Outcome → State
  | .next t => t
  | .fault _ => ready
  | .refused _ => ready

/-- The state with I at an address. -/
def withI (a : Word) (s : State) : State := { s with i := a }

/-- The state with one key down. -/
def withKey (k : Nibble) (s : State) : State := { s with keys := s.keys.set k.toNat true k.isLt }

/-- The state with PC at an address. -/
def withPc (a : Word) (s : State) : State := { s with pc := a }

/-! ### Decoding: words written out from the encodings of `30_encoding.md` rules R51, R54 -/

/- 0000 0000 1110 0000 and 0000 0000 1110 1110: no fields -/
theorem test_decode_cls : decodeWord 0b0000000011100000#16 = some .cls := by decide
theorem test_decode_ret : decodeWord 0b0000000011101110#16 = some .ret := by decide
/- OP 1, 2: NNN = 1010 1011 1100 is 0xABC -/
theorem test_decode_jp : decodeWord 0b0001101010111100#16 = some (.jp 0xABC#12) := by decide
theorem test_decode_call : decodeWord 0b0010101010111100#16 = some (.call 0xABC#12) := by decide
/- OP 3, 4: X = 0011, NN = 0010 1010 -/
theorem test_decode_seImm : decodeWord 0b0011001100101010#16 = some (.seImm 3#4 0x2A#8) := by decide
theorem test_decode_sneImm : decodeWord 0b0100001100101010#16 = some (.sneImm 3#4 0x2A#8) := by decide
/- OP 5: X = 0001, Y = 0010, N = 0 -/
theorem test_decode_seReg : decodeWord 0b0101000100100000#16 = some (.seReg 1#4 2#4) := by decide
/- OP 6, 7: X = 1010, NN = 0010 1011 -/
theorem test_decode_ldImm : decodeWord 0b0110101000101011#16 = some (.ldImm 10#4 0x2B#8) := by decide
theorem test_decode_addImm : decodeWord 0b0111101000101011#16 = some (.addImm 10#4 0x2B#8) := by decide
/- OP 8: X = 0001, Y = 0010, N the sub-opcode 0 to 7 and E -/
theorem test_decode_ldReg : decodeWord 0b1000000100100000#16 = some (.ldReg 1#4 2#4) := by decide
theorem test_decode_orReg : decodeWord 0b1000000100100001#16 = some (.orReg 1#4 2#4) := by decide
theorem test_decode_andReg : decodeWord 0b1000000100100010#16 = some (.andReg 1#4 2#4) := by decide
theorem test_decode_xorReg : decodeWord 0b1000000100100011#16 = some (.xorReg 1#4 2#4) := by decide
theorem test_decode_addReg : decodeWord 0b1000000100100100#16 = some (.addReg 1#4 2#4) := by decide
theorem test_decode_subReg : decodeWord 0b1000000100100101#16 = some (.subReg 1#4 2#4) := by decide
theorem test_decode_shr : decodeWord 0b1000000100000110#16 = some (.shr 1#4) := by decide
theorem test_decode_subnReg : decodeWord 0b1000000100100111#16 = some (.subnReg 1#4 2#4) := by decide
theorem test_decode_shl : decodeWord 0b1000000100001110#16 = some (.shl 1#4) := by decide
/- OP 9: X = 0001, Y = 0010, N = 0 -/
theorem test_decode_sneReg : decodeWord 0b1001000100100000#16 = some (.sneReg 1#4 2#4) := by decide
/- OP A, B: NNN = 0010 1111 0000 -/
theorem test_decode_ldI : decodeWord 0b1010001011110000#16 = some (.ldI 0x2F0#12) := by decide
theorem test_decode_jpV0 : decodeWord 0b1011001011110000#16 = some (.jpV0 0x2F0#12) := by decide
/- OP C: X = 0011, NN = 0000 1111 -/
theorem test_decode_rnd : decodeWord 0b1100001100001111#16 = some (.rnd 3#4 0x0F#8) := by decide
/- OP D: X = 0001, Y = 0010, N = 0101 -/
theorem test_decode_drw : decodeWord 0b1101000100100101#16 = some (.drw 1#4 2#4 5#4) := by decide
/- OP E: X = 0010, NN = 1001 1110, 1010 0001 -/
theorem test_decode_skp : decodeWord 0b1110001010011110#16 = some (.skp 2#4) := by decide
theorem test_decode_sknp : decodeWord 0b1110001010100001#16 = some (.sknp 2#4) := by decide
/- OP F: X = 0100, NN = 07, 0A, 15, 18, 1E, 29, 33, 55, 65 -/
theorem test_decode_ldVxDt : decodeWord 0b1111010000000111#16 = some (.ldVxDt 4#4) := by decide
theorem test_decode_ldVxKey : decodeWord 0b1111010000001010#16 = some (.ldVxKey 4#4) := by decide
theorem test_decode_ldDtVx : decodeWord 0b1111010000010101#16 = some (.ldDtVx 4#4) := by decide
theorem test_decode_ldStVx : decodeWord 0b1111010000011000#16 = some (.ldStVx 4#4) := by decide
theorem test_decode_addI : decodeWord 0b1111010000011110#16 = some (.addI 4#4) := by decide
theorem test_decode_ldFont : decodeWord 0b1111010000101001#16 = some (.ldFont 4#4) := by decide
theorem test_decode_ldBcd : decodeWord 0b1111010000110011#16 = some (.ldBcd 4#4) := by decide
theorem test_decode_storeRegs : decodeWord 0b1111010001010101#16 = some (.storeRegs 4#4) := by decide
theorem test_decode_loadRegs : decodeWord 0b1111010001100101#16 = some (.loadRegs 4#4) := by decide

/-- T10: Y of the shifts is ignored (rule R56). -/
theorem test_decode_shift_ignores_y :
    decodeWord 0x81F6#16 = some (.shr 1#4) ∧ decodeWord 0x81FE#16 = some (.shl 1#4) := by decide

/-- T9: words that match no row (rule R55). -/
theorem test_decode_unimplemented :
    [0x0000#16, 0x00E1#16, 0x0123#16, 0x5121#16, 0x8128#16, 0x812F#16, 0x9121#16, 0xE19F#16, 0xE1A0#16,
      0xF100#16, 0xF1FF#16, 0xF166#16].all (fun w => (decodeWord w).isNone) = true := by decide

/-- Bytes: high byte first (rule R50), the rest of the stream is left, one byte is too few. -/
theorem test_decode_bytes :
    decode [0x12#8, 0x34#8, 0x99#8] = .ok (.jp 0x234#12, [0x99#8]) ∧
    decode [0x00#8, 0x00#8] = .error (.unimplemented 0x0000#16) ∧
    decode [0x12#8] = .error .truncated ∧ decode [] = .error .truncated := by decide

/-- The encoder writes Y = 0 in a shift (rule R56) and the fields where rule R51 has them. -/
theorem test_encode_words :
    encode (.shr 1#4) = [0x81#8, 0x06#8] ∧ encode (.drw 1#4 2#4 5#4) = [0xD1#8, 0x25#8] ∧
    encode (.jp 0xABC#12) = [0x1A#8, 0xBC#8] := by decide

/-- A word of the opcode table, whole and with its bits above the given ones zero. -/
theorem test_decode_table_word :
    decodeTableWord 16 0x81F6 = some (.shr 1#4) ∧ decodeTableWord 16 0x5121 = none ∧
    decodeTableWord 8 0xE0 = some .cls := by decide

/-! ### The check of written operands (`30_encoding.md` rules R53, R58): ill-formed terms are refused -/

theorem test_wf_register_x_too_wide : (⟨.skp, [16]⟩ : Source).wellFormed = false := by decide
theorem test_wf_register_y_too_wide : (⟨.orReg, [1, 16]⟩ : Source).wellFormed = false := by decide
theorem test_wf_nibble_too_wide : (⟨.drw, [1, 2, 16]⟩ : Source).wellFormed = false := by decide
theorem test_wf_byte_too_wide : (⟨.ldImm, [1, 256]⟩ : Source).wellFormed = false := by decide
theorem test_wf_address_too_wide : (⟨.jp, [4096]⟩ : Source).wellFormed = false := by decide
theorem test_wf_operand_missing : (⟨.ldImm, [1]⟩ : Source).wellFormed = false := by decide
theorem test_wf_operand_extra : (⟨.cls, [0]⟩ : Source).wellFormed = false := by decide
theorem test_wf_shift_takes_one_operand : (⟨.shr, [1, 2]⟩ : Source).wellFormed = false := by decide
theorem test_wf_refused_has_no_instruction : (⟨.jp, [4096]⟩ : Source).instr = none := by decide
theorem test_wf_widest_operands :
    (⟨.drw, [15, 15, 15]⟩ : Source).instr = some (.drw 15#4 15#4 15#4) ∧
    (⟨.jp, [4095]⟩ : Source).instr = some (.jp 0xFFF#12) := by decide

/-! ### Fetch, decode, PC -/

/-- T1: the fetch would leave memory. -/
theorem test_fetch_past_memory :
    stepGives (withPc 0xFFF ready) (· == (withPc 0xFFF ready).latch .boundsViolation) = true := by
  decide

/-- T2: a non-branching instruction at 0xFFE; nothing is committed. -/
theorem test_pc_past_memory_commits_nothing :
    stepGives (wordAt 0xFFE 0x6005 (withPc 0xFFE ready)) (fun t =>
      t.fault == some .boundsViolation && t.readV 0 == 0 && t.pc == 0xFFE) = true := by decide

/-- T3: a jump at 0xFFE runs. -/
theorem test_jump_at_last_word :
    stepGives (wordAt 0xFFE 0x1200 (withPc 0xFFE ready)) (fun t =>
      t.fault == none && t.pc == 0x200) = true := by decide

/-- T6: an odd PC is legal. -/
theorem test_odd_pc :
    stepGives (wordAt 0x201 0x6007 (withPc 0x201 ready)) (fun t =>
      t.fault == none && t.readV 0 == 7 && t.pc == 0x203) = true := by decide

/-- T8, T172: the empty program memory is an unimplemented word, recorded. -/
theorem test_unimplemented_word_recorded :
    stepGives ready (fun t => t.fault == some (.unimplementedOpcode 0) && faultCode t == 4 &&
      faultWord t == 0 && faultValid t && t.pc == 0x200) = true := by decide

/-! ### Control flow -/

/-- T26. -/
theorem test_ret :
    runs 0x00EE { ready with sp := 2, stack := #v[0x202, 0x456, 0, 0, 0, 0, 0, 0, 0, 0, 0, 0, 0, 0, 0, 0] }
      (fun t => t.sp == 1 && t.pc == 0x456) = true := by decide

/-- T25. -/
theorem test_ret_underflow : traps 0x00EE ready .stackUnderflow = true := by decide

/-- T20. -/
theorem test_jp : runs 0x1234 ready (fun t => t.pc == 0x234) = true := by decide

/-- T23: the sixteenth call still fits. -/
theorem test_call : runs 0x2300 { ready with sp := 15 }
    (fun t => t.stack[15] == 0x202 && t.sp == 16 && t.pc == 0x300) = true := by decide

/-- T24. -/
theorem test_call_exhaustion : traps 0x2300 { ready with sp := 16 } .stackExhaustion = true := by decide

/-- T28, T29. -/
theorem test_seImm : (runs 0x332A (setRegs [(3, 0x2A)] ready) (fun t => t.pc == 0x204) &&
    runs 0x332A (setRegs [(3, 0x2B)] ready) (fun t => t.pc == 0x202)) = true := by decide

/-- T30, T31. -/
theorem test_sneImm : (runs 0x432A (setRegs [(3, 0x2A)] ready) (fun t => t.pc == 0x202) &&
    runs 0x432A ready (fun t => t.pc == 0x204)) = true := by decide

/-- T32, T33. -/
theorem test_seReg : (runs 0x5120 (setRegs [(1, 7), (2, 7)] ready) (fun t => t.pc == 0x204) &&
    runs 0x5120 (setRegs [(1, 7), (2, 8)] ready) (fun t => t.pc == 0x202)) = true := by decide

/-- T35, T36. -/
theorem test_sneReg : (runs 0x9120 (setRegs [(1, 7), (2, 8)] ready) (fun t => t.pc == 0x204) &&
    runs 0x9120 (setRegs [(1, 7), (2, 7)] ready) (fun t => t.pc == 0x202)) = true := by decide

/-- T40: V0 is used, not V5. -/
theorem test_jpV0 : runs 0xB500 (setRegs [(0, 1), (5, 0x40)] ready) (fun t => t.pc == 0x501) = true := by
  decide

/-- T39: not wrapped. -/
theorem test_jpV0_past_memory : traps 0xBF01 (setRegs [(0, 0xFF)] ready) .boundsViolation = true := by
  decide

/-! ### Register and ALU -/

/-- T50. -/
theorem test_ldImm : runs 0x6A2B ready (fun t => t.readV 0xA == 0x2B && t.pc == 0x202) = true := by decide

/-- T52: wraps, no flag. -/
theorem test_addImm : runs 0x7102 (setRegs [(1, 0xFF)] ready)
    (fun t => t.readV 1 == 1 && t.readV VF == 0) = true := by decide

/-- T54. -/
theorem test_ldReg : runs 0x8120 (setRegs [(2, 0x37)] ready)
    (fun t => t.readV 1 == 0x37 && t.readV 2 == 0x37) = true := by decide

/-- T55. -/
theorem test_orReg : runs 0x8121 (setRegs [(1, 0xF0), (2, 0x0F), (0xF, 1)] ready)
    (fun t => t.readV 1 == 0xFF && t.readV VF == 1) = true := by decide

/-- T56. -/
theorem test_andReg : runs 0x8122 (setRegs [(1, 0xF0), (2, 0x3C), (0xF, 1)] ready)
    (fun t => t.readV 1 == 0x30 && t.readV VF == 1) = true := by decide

/-- T57. -/
theorem test_xorReg : runs 0x8123 (setRegs [(1, 0xF0), (2, 0x3C), (0xF, 1)] ready)
    (fun t => t.readV 1 == 0xCC && t.readV VF == 1) = true := by decide

/-- S4a. -/
theorem test_addReg : runs 0x8124 (setRegs [(1, 0xFF), (2, 1)] ready)
    (fun t => t.readV 1 == 0 && t.readV VF == 1 && t.pc == 0x202) = true := by decide

/-- T62: with X = 15 the flag is what remains. -/
theorem test_addReg_into_vf : runs 0x8F24 (setRegs [(0xF, 9), (2, 1)] ready)
    (fun t => t.readV VF == 0) = true := by decide

/-- S5a. -/
theorem test_subReg : runs 0x8125 (setRegs [(1, 1), (2, 2)] ready)
    (fun t => t.readV 1 == 0xFF && t.readV VF == 0) = true := by decide

/-- T65: equal operands do not borrow. -/
theorem test_subReg_equal : runs 0x8125 (setRegs [(1, 7), (2, 7)] ready)
    (fun t => t.readV 1 == 0 && t.readV VF == 1) = true := by decide

/-- T76: VY is not the source. -/
theorem test_shr : runs 0x8126 (setRegs [(1, 0x80), (2, 3)] ready)
    (fun t => t.readV 1 == 0x40 && t.readV VF == 0 && t.readV 2 == 3) = true := by decide

/-- T77. -/
theorem test_shr_into_vf : runs 0x8F06 (setRegs [(0xF, 3)] ready) (fun t => t.readV VF == 1) = true := by
  decide

/-- T70. -/
theorem test_subnReg : runs 0x8127 (setRegs [(1, 5), (2, 2)] ready)
    (fun t => t.readV 1 == 0xFD && t.readV VF == 0) = true := by decide

/-- T79. -/
theorem test_shl : runs 0x810E (setRegs [(1, 0x81)] ready)
    (fun t => t.readV 1 == 2 && t.readV VF == 1) = true := by decide

/-- T84: the host presents 0xB7. -/
theorem test_rnd : command (.tick 0xB7) (wordAt 0x200 0xC30F ready)
    (fun t => t.readV 3 == 7 && t.pc == 0x202 && t.rnd == none && t.pending == []) = true := by decide

/-! ### Index and memory -/

/-- T90. -/
theorem test_ldI : runs 0xA2F0 ready (fun t => t.i == 0x2F0) = true := by decide

/-- T92: wraps modulo 65536. -/
theorem test_addI : runs 0xF21E (withI 0xFFFF (setRegs [(2, 2)] ready)) (fun t => t.i == 1) = true := by
  decide

/-- T94. -/
theorem test_ldFont : runs 0xF029 (setRegs [(0, 0xF)] ready) (fun t => t.i == 0x4B) = true := by decide

/-- T96: not glyph A. -/
theorem test_ldFont_not_a_digit : traps 0xF029 (setRegs [(0, 0x1A)] ready) .boundsViolation = true := by
  decide

/-- The start of T97: V1 = 45, I = 0x300, AA AA AA there. -/
def bcdStart : State :=
  State.pokeBytes 0x300 [0xAA, 0xAA, 0xAA] (withI 0x300 (setRegs [(1, 45)] ready))

/-- T97, `variable_length`. -/
theorem test_ldBcd : runs 0xF133 bcdStart
    (fun t => t.peekBytes 0x300 3 == [4, 5, 0xAA] && t.i == 0x300) = true := by decide

/-- T97, `fixed3`. -/
theorem test_ldBcd_fixed3 : runs 0xF133 { bcdStart with cfg := { defaultConfig with bcd := .fixed3 } }
    (fun t => t.peekBytes 0x300 3 == [0, 4, 5]) = true := by decide

/-- T105. -/
theorem test_storeRegs :
    runs 0xF155 (withI 0x300 (setRegs [(0, 0x11), (1, 0x22), (2, 0x33)] ready))
      (fun t => t.peekBytes 0x300 3 == [0x11, 0x22, 0] && t.i == 0x300) = true := by decide

/-- T107: no byte written. -/
theorem test_storeRegs_past_memory : traps 0xFF55 (withI 0xFF8 ready) .boundsViolation = true := by decide

/-- T110: glyph 0 of the default font. -/
theorem test_loadRegs : runs 0xF465 ready
    (fun t => t.firstRegs 6 == [0xF0, 0x90, 0x90, 0x90, 0xF0, 0] && t.i == 0) = true := by decide

/-- T111. -/
theorem test_loadRegs_past_memory : traps 0xF165 (withI 0xFFF ready) .boundsViolation = true := by decide

/-! ### Display -/

/-- T120 from a display with one cell set. -/
theorem test_cls : runs 0x00E0 { ready with display := Display.setCell blankDisplay 2047 true }
    (fun t => t.display == blankDisplay && t.readV VF == 0) = true := by decide

/-- The start of T121: one row C0 at column 63, row 31. -/
def drawStart : State :=
  (withI 0x300 (setRegs [(1, 63), (2, 31)] ready)).poke 0x300 0xC0

/-- T121: the sprite wraps across the right edge. -/
theorem test_drw : runs 0xD121 drawStart
    (fun t => t.display == Display.setCell (Display.setCell blankDisplay 2047 true) 1984 true &&
      t.readV VF == 0) = true := by decide

/-- T127, both variants: a set cell under a 1 bit. -/
theorem test_drw_variants :
    let start := ({ ready with display := Display.setCell blankDisplay 0 true, i := 0x300 } : State).poke 0x300 0x80
    (runs 0xD121 start (fun t => t.display == blankDisplay && t.readV VF == 1) &&
      runs 0xD121 { start with cfg := { defaultConfig with draw := .sourceOverwrite } }
        (fun t => Display.cell t.display 0 && t.readV VF == 0)) = true := by decide

/-! ### Keypad and timers -/

/-- T140, T141. -/
theorem test_skp : (runs 0xE29E (withKey 10 (setRegs [(2, 10)] ready)) (fun t => t.pc == 0x204) &&
    runs 0xE29E (setRegs [(2, 10)] ready) (fun t => t.pc == 0x202)) = true := by decide

/-- T145: the low nibble is not taken. -/
theorem test_skp_no_key : traps 0xE29E (withKey 10 (setRegs [(2, 0x1A)] ready)) .boundsViolation = true := by
  decide

/-- T142, T143. -/
theorem test_sknp : (runs 0xE2A1 (setRegs [(2, 10)] ready) (fun t => t.pc == 0x204) &&
    runs 0xE2A1 (withKey 10 (setRegs [(2, 10)] ready)) (fun t => t.pc == 0x202)) = true := by decide

/-- T148: the highest key down. -/
theorem test_ldVxKey : runs 0xF50A (withKey 3 (withKey 9 ready))
    (fun t => t.readV 5 == 9 && t.pc == 0x202) = true := by decide

/-- T146: no key down, the whole state is unchanged. -/
theorem test_ldVxKey_waits :
    let start := wordAt 0x200 0xF50A (setRegs [(5, 0x77)] ready)
    stepGives start (· == start) = true := by decide

/-- T152. -/
theorem test_ldVxDt : runs 0xF407 { ready with dt := 0x3C } (fun t => t.readV 4 == 0x3C) = true := by decide

/-- T153. -/
theorem test_ldDtVx : runs 0xF415 (setRegs [(4, 0x3C)] ready) (fun t => t.dt == 0x3C) = true := by decide

/-- T154. -/
theorem test_ldStVx : runs 0xF418 (setRegs [(4, 2)] ready)
    (fun t => t.st == 2 && t.toneEvent == false) = true := by decide

/-! ### Host operations -/

/-- P5 (a), (b) and T1: the codes of the first three conditions; their word is 0. -/
theorem test_fault_outputs :
    ([Fault.boundsViolation, .stackExhaustion, .stackUnderflow].map fun f =>
      (faultValid (ready.latch f), faultCode (ready.latch f), faultWord (ready.latch f))) =
      [(true, 1, 0), (true, 2, 0), (true, 3, 0)] := by decide

/-- T165. -/
theorem test_tickTimers : command .tickTimers { ready with dt := 3, st := 1 }
    (fun t => t.dt == 2 && t.st == 0 && t.toneEvent) = true := by decide

/-- T162, T164: no signal from the delay timer, none at ST = 0. -/
theorem test_tickTimers_silent : command .tickTimers { ready with dt := 1, toneEvent := true }
    (fun t => t.dt == 0 && t.st == 0 && !t.toneEvent) = true := by decide

/-- T166. -/
theorem test_keypress : (command (.keypress 4 true) ready (· == withKey 4 ready) &&
    command (.keypress 4 false) (withKey 4 ready) (· == ready)) = true := by decide

/-- T170: an image of one byte. -/
theorem test_load : command (.load [0x12]) ready
    (fun t => t.peekBytes 0x1FF 3 == [0, 0x12, 0] && t.fault == none) = true := by decide

/-- T169. -/
theorem test_load_nothing : command (.load []) ready (· == ready) = true := by decide

/-- T171 from a faulted state. -/
theorem test_reset_clears_fault :
    command .reset (withI 7 (wordAt 0x300 0x1234 ({ ready with fault := some .stackUnderflow, sp := 3 } : State)))
      (· == ready) = true := by decide

/-- T173, T11: a faulted machine ignores the timers, the keys and the tick. -/
theorem test_faulted_machine_waits :
    let s : State := { ready with fault := some .stackUnderflow, dt := 5 }
    (command .tickTimers s (· == s) && command (.keypress 1 true) s (· == s) && command (.tick 9) s (· == s)) =
      true := by decide

/-- The three ways a schedule goes on after its known commands (`00_scope.md` rule R6): it has ended, and
nothing changes; the host ticks; it is the next of a free sequence, and one more of it is served. -/
theorem test_schedule_tail :
    stepGives { ready with tail := .ended, dt := 5 } (· == { ready with tail := .ended, dt := 5 }) = true ∧
    step ready = tick ready ∧
    step State.reset = perform (Config.freeCommand 0) { State.reset with served := 1 } := by
  exact ⟨by decide, rfl, rfl⟩

/-- A word placed runs next, also from a PC with no room and past a fault. -/
theorem test_withFetchWord :
    stepGives ((withPc 0xFFF { State.reset with fault := some .stackUnderflow }).withFetchWord 16 0x6A2B)
      (fun t => t.readV 0xA == 0x2B && t.pc == 0x202) = true := by decide

/-! ### Witnesses: the hypotheses of each statement can be met -/

theorem witness_DecodeOfEncode : (Instr.drw 15#4 15#4 15#4).wellFormed = true := by decide

theorem witness_EncodeOfDecode :
    decodeWord 0x81F6#16 = some (.shr 1#4) ∧ decodeWord 0xFF65#16 = some (.loadRegs 15#4) := by decide

theorem witness_WrittenFormNeverTruncated :
    (⟨.ldImm, [15, 255]⟩ : Source).instr = some (.ldImm 15#4 255#8) ∧
    (⟨.ldImm, [15, 255]⟩ : Source).wellFormed = true ∧ (⟨.ldImm, [15, 256]⟩ : Source).wellFormed = false := by
  decide

/-- The last address an instruction can be fetched from, a jump there. -/
def lastWord : State := wordAt 0xFFE 0x1200 (withPc 0xFFE ready)

theorem witness_StepRunsDecodedInstruction :
    lastWord.fault = none ∧ lastWord.pc.toNat ≤ 4094 ∧ (Instr.jp 0x200#12).wellFormed = true ∧
    decode [lastWord.peek lastWord.pc.toNat, lastWord.peek (lastWord.pc.toNat + 1)] = .ok (.jp 0x200#12, []) ∧
    lastWord.pending = [] ∧ lastWord.tail = .ticking ∧ (lastWord.issue (.tick 7)).pending = [.tick 7] := by decide

theorem witness_FetchPastMemoryTraps :
    (withPc 0xFFF ready).fault = none ∧ 4094 < (withPc 0xFFF ready).pc.toNat := by decide

theorem witness_UnimplementedOpcodeExactly :
    ready.fault = none ∧ tick ready = .next (ready.latch (.unimplementedOpcode 0)) ∧
    (ready.latch (.unimplementedOpcode 0)).fault = some (.unimplementedOpcode 0) ∧
    ready.pc.toNat ≤ 4094 ∧ ready.wordAtPc = 0 ∧
    perform .none ready = .next ready :=
  ⟨rfl, rfl, rfl, by decide, by decide, rfl⟩

theorem witness_StackFaultsExactly :
    (let s : State := wordAt 0x200 0x2300 { ready with sp := 16 }
     s.fault = none ∧ s.nextInstr = some (.call 0x300#12) ∧ s.sp.val = 16 ∧ stepGives s (fun _ => true) = true) ∧
    (let s : State := wordAt 0x200 0x00EE ready
     s.fault = none ∧ s.nextInstr = some .ret ∧ s.sp.val = 0 ∧ stepGives s (fun _ => true) = true) ∧
    perform .tickTimers ready = .next ready := ⟨by decide, by decide, rfl⟩

/-- Each clause at its boundary. -/
theorem witness_IndexOutOfRangeTraps :
    (3#4).toNat ≠ 0 ∧ 4095 < (withI 0xFFE ready).i.toNat + (3#4).toNat - 1 ∧
    (let s := withI 0xFFE { ready with cfg := { defaultConfig with bcd := .fixed3 } }
     s.cfg.bcd = .fixed3 ∧ 4095 < s.i.toNat + 2) ∧
    (let s := withI 0xFFE (setRegs [(1, 100)] ready)
     100 ≤ (s.readV 1).toNat ∧ 4095 < s.i.toNat + 2) ∧
    (let s := withI 0xFFF (setRegs [(1, 10)] ready)
     10 ≤ (s.readV 1).toNat ∧ 4095 < s.i.toNat + 1) ∧
    4095 < (withI 0x1000 ready).i.toNat ∧
    4095 < (withI 0xFFF ready).i.toNat + (1#4).toNat ∧
    15 < ((setRegs [(1, 16)] ready).readV 1).toNat := by decide

theorem witness_NonBranchingAdvancesByTwo :
    (Instr.ldImm 0#4 5#8).op ∉ instrsWritingPc ∧
    4095 < (withPc 0xFFE ready).pc.toNat + 2 ∧
    (withPc 0xFFD ready).fault = none ∧
    (stateOf (exec (.ldImm 0#4 5#8) (withPc 0xFFD ready))).fault = none := by decide

/-- An instruction that writes a register and the flag answers a next state: the hypothesis of
CommitOrPreciseFault, RegisterFrame, AccessMatrixFrame and SoundTimerUnreadable. -/
theorem witness_exec_answers :
    (let s := setRegs [(1, 0xFF), (2, 1)] ready
     exec (.addReg 1 2) s = .next (stateOf (exec (.addReg 1 2) s)) ∧ s.fault = none ∧
      (stateOf (exec (.addReg 1 2) s)).fault = none) ∧
    instrWritesFlag (.addReg 1 2) = true ∧ instrHasDestination (.addReg 1 2) 3 = false ∧ (3#4 : Reg) ≠ VF ∧
    instrWritesFlag (.ldImm 1 2) = false ∧ (Instr.addReg 1 2).op ∉ instrsWritingPc ∧
    (Instr.skp 1).op ∈ instrsSkipping :=
  ⟨⟨rfl, rfl, rfl⟩, by decide, by decide, by decide, by decide, by decide, by decide⟩

theorem witness_FaultedMachineWaitsForReset :
    (ready.latch .stackUnderflow).fault ≠ none ∧ Command.tickTimers ≠ .reset := by decide

/-- A state with memory written, a return address held and a timer running. -/
def busy : State :=
  wordAt 0x200 0x00EE { ready with sp := 1, stack := ready.stack.set 0 0x1000, dt := 9 }

theorem witness_StepKeepsInv : busy.Inv ∧ step busy = .next (busy.latch .boundsViolation) :=
  ⟨⟨by decide, by decide, by decide, by decide⟩, rfl⟩

theorem witness_ResetMeetsInv : perform .reset busy = .next (resetMachine busy) := rfl

/-- The hypothesis of ResetGivenValues and ResetChosenValues, each side. -/
theorem witness_reset_values :
    State.baseline busy.cfg = State.reset ∧ perform .reset busy = .next ready := ⟨rfl, rfl⟩

theorem witness_ConfigurationIsFixed : step ready = .next (stateOf (step ready)) := rfl

theorem witness_StoreFrame :
    Memory.wf bcdStart.cfg.font bcdStart.mem = true ∧
    exec (.storeRegs 1) bcdStart = .next (stateOf (exec (.storeRegs 1) bcdStart)) ∧
    exec (.ldBcd 1) bcdStart = .next (stateOf (exec (.ldBcd 1) bcdStart)) ∧
    0x2FF < bcdStart.i.toNat ∧ bcdStart.i.toNat + (1#4).toNat < 0x302 ∧
    bcdStart.i.toNat + (bcdDigits bcdStart.cfg.bcd (bcdStart.readV 1)).length ≤ 0x302 :=
  ⟨by decide, rfl, rfl, by decide, by decide, by decide⟩

/-- Returns: to the last address of memory, past it, and with nothing held. -/
theorem witness_ReturnPops :
    (let s : State := { ready with sp := 1, stack := ready.stack.set 0 0xFFF }
     s.sp.val = 0 + 1 ∧ s.stack[0].toNat ≤ 4095) ∧
    (let s : State := { ready with sp := 16, stack := ready.stack.set 15 0x1000 }
     s.sp.val = 15 + 1 ∧ 4095 < s.stack[15].toNat) ∧ ready.sp.val = 0 := by decide

theorem witness_CallPushes :
    (let s : State := { ready with sp := 15 }
     s.sp.val < 16 ∧ (withPc 0xFFD s).pc.toNat ≤ 4095) ∧ ({ ready with sp := 16 } : State).sp.val = 16 := by
  decide

/-- The vector S3. -/
theorem witness_CallThenReturn :
    let s := wordAt 0x345 0x00EE (wordAt 0x200 0x2345 ready)
    s.fault = none ∧ s.pending = [] ∧ s.tail = .ticking ∧ s.nextInstr = some (.call 0x345#12) ∧ s.sp.val < 16 ∧
    s.pc.toNat + 2 ≤ 4095 ∧ (0x345#12).toNat ≤ 4094 ∧ s.peek 0x345 = 0x00 ∧ s.peek 0x346 = 0xEE ∧
    15 ≠ s.sp.val := by decide

/-- Both sides of the condition, PC as far up as each clause allows, and one further. -/
theorem witness_SkipOnImmediate :
    ready.readV 3 = 0 ∧ ready.readV 3 ≠ 7 ∧ (withPc 0xFFB ready).pc.toNat + 4 ≤ 4095 ∧
    (withPc 0xFFD ready).pc.toNat + 2 ≤ 4095 ∧ 4095 < (withPc 0xFFC ready).pc.toNat + 4 ∧
    4095 < (withPc 0xFFE ready).pc.toNat + 2 := by decide

theorem witness_SkipOnRegisters :
    (let s := setRegs [(1, 7)] ready
     s.readV 1 ≠ s.readV 2 ∧ s.readV 3 = s.readV 2 ∧ (withPc 0xFFB s).pc.toNat + 4 ≤ 4095 ∧
      (withPc 0xFFD s).pc.toNat + 2 ≤ 4095 ∧ 4095 < (withPc 0xFFC s).pc.toNat + 4 ∧
      4095 < (withPc 0xFFE s).pc.toNat + 2) := by decide

theorem witness_IndexedJump :
    (let s := setRegs [(0, 0xFF)] ready
     (s.readV 0#4).toNat + (0xF00#12).toNat ≤ 4095 ∧ 4095 < (s.readV 0#4).toNat + (0xF01#12).toNat) := by
  decide

/-- The hypothesis of ImmediateLoadAndAdd, CopyAndLogic, AddSetsCarry, SubtractSetsNoBorrow,
ShiftsDropIntoVF, RandomIsMasked, AddToIndex, ClearScreen and TimerAccess, at the last PC it admits; of
RandomIsMasked also a byte presented and a bit that NN lacks. -/
theorem witness_room_to_advance :
    (withPc 0xFFD ready).pc.toNat + 2 ≤ 4095 ∧ (1#4 : Reg) ≠ VF ∧ (2#4 : Reg) ≠ 1#4 ∧
    ({ ready with rnd := some 0xB7 } : State).rnd = some 0xB7 ∧ ready.rnd = none ∧
    (0x0F#8).getLsbD 4 = false := by decide

theorem witness_IndexLoads :
    (let s := withPc 0xFFD (setRegs [(0, 15)] ready)
     s.pc.toNat + 2 ≤ 4095 ∧ (s.readV 0).toNat ≤ 15) ∧
    15 < ((setRegs [(0, 16)] ready).readV 0).toNat := by decide

/-- Each digit count at its boundary, at the last address it fits. -/
theorem witness_BcdStoresDigits :
    (let s := withI 0xFFD { ready with cfg := { defaultConfig with bcd := .fixed3 } }
     s.pc.toNat + 2 ≤ 4095 ∧ Memory.wf s.cfg.font s.mem = true ∧ s.cfg.bcd = .fixed3 ∧ s.i.toNat + 2 ≤ 4095) ∧
    (let s := withI 0xFFD (setRegs [(1, 100)] ready)
     100 ≤ (s.readV 1).toNat ∧ s.i.toNat + 2 ≤ 4095) ∧
    (let s := withI 0xFFE (setRegs [(1, 99)] ready)
     s.cfg.bcd = .variableLength ∧ 10 ≤ (s.readV 1).toNat ∧ (s.readV 1).toNat < 100 ∧ s.i.toNat + 1 ≤ 4095) ∧
    (let s := withI 0xFFF (setRegs [(1, 9)] ready)
     s.cfg.bcd = .variableLength ∧ (s.readV 1).toNat < 10 ∧ s.i.toNat ≤ 4095) := by decide

/-- The hypotheses of StoreRegistersAtI and LoadRegistersFromI. -/
theorem witness_block_moves :
    (let s := withI 0xFF0 ready
     s.pc.toNat + 2 ≤ 4095 ∧ Memory.wf s.cfg.font s.mem = true ∧ s.i.toNat + (15#4).toNat ≤ 4095) ∧
    (let s := withI 0xFFE ready
     s.i.toNat + (1#4).toNat ≤ 4095 ∧ (1#4).toNat < (2#4).toNat) := by decide

/-- The last word of memory stored to by each, and I one below it so that only its first byte is. -/
theorem witness_FetchSeesStores :
    (let s := withPc 0xFFC (withI 0xFFE (setRegs [(0, 0x12), (1, 0x34)] ready))
     Memory.wf s.cfg.font s.mem = true ∧ s.pc.toNat + 3 ≤ 4095 ∧ s.i.toNat + (1#4).toNat ≤ 4095 ∧
      s.i.toNat = s.pc.toNat + 2 ∧ 1 ≤ (1#4).toNat ∧ s.fault = none ∧
      decodeWord (wordOfBytes (s.readV 0#4) (s.readV 1#4)) = some (.jp 0x234#12)) ∧
    (let s := withPc 0xFFC (withI 0xFFD (setRegs [(1, 10)] ready))
     Memory.wf s.cfg.font s.mem = true ∧ s.pc.toNat + 3 ≤ 4095 ∧
      s.i.toNat + (bcdDigits s.cfg.bcd (s.readV 1)).length ≤ 4096 ∧ s.fault = none) := by decide

/-- The hypotheses of DrawTogglesAndReportsCollision and DrawTwiceRestoresDisplay; an empty sprite, and
the tallest at the last address it fits. -/
theorem witness_draw_xor :
    (let s := withI 0xFF1 ready
     s.cfg.draw = .xorCollision ∧ s.pc.toNat + 4 ≤ 4095 ∧ s.i.toNat + (15#4).toNat - 1 ≤ 4095) ∧
    (1#4 : Reg) ≠ VF ∧ (2#4 : Reg) ≠ VF ∧ (0#4).toNat = 0 ∧
    Display.cell (Display.setCell blankDisplay 0 true) 0 = true := by decide

theorem witness_DrawOverwrites :
    let s := withI 0xFF1 { ready with cfg := { defaultConfig with draw := .sourceOverwrite } }
    s.cfg.draw = .sourceOverwrite ∧ s.pc.toNat + 2 ≤ 4095 ∧ s.i.toNat + (15#4).toNat - 1 ≤ 4095 := by decide

theorem witness_SkipOnKey :
    (let s := withKey 15 (setRegs [(2, 15)] ready)
     (s.readV 2).toNat = (15 : Fin 16).val ∧ s.keys[(15 : Fin 16)] = true ∧
      (s.readV 3).toNat = (0 : Fin 16).val ∧ s.keys[(0 : Fin 16)] = false ∧
      (withPc 0xFFB s).pc.toNat + 4 ≤ 4095 ∧ (withPc 0xFFD s).pc.toNat + 2 ≤ 4095 ∧
      4095 < (withPc 0xFFC s).pc.toNat + 4 ∧ 4095 < (withPc 0xFFE s).pc.toNat + 2) := by decide

theorem witness_WaitForKey :
    ((withPc 0xFFF ready).pc.toNat ≤ 4095 ∧ ∀ k : Fin 16, ready.keys[k] = false) ∧
    (let s := withKey 3 (withKey 9 ready)
     s.keys[(9 : Fin 16)] = true ∧ (∀ j : Fin 16, 9 < j → s.keys[j] = false) ∧ s.pc.toNat + 2 ≤ 4095) ∧
    4095 < (withPc 0xFFE ready).pc.toNat + 2 := by decide

theorem witness_TimersCountDown :
    (let s : State := { ready with st := 1, toneEvent := true }
     s.fault = none ∧ s.st = 1#8 ∧ Command.none ≠ .tickTimers ∧
      perform .none s = .next { s with toneEvent := false }) := ⟨rfl, rfl, by decide, rfl⟩

/-- Each content of the latch. -/
theorem witness_FaultOutputsShowTheLatch :
    ready.fault = none ∧ (ready.latch .boundsViolation).fault = some .boundsViolation ∧
    (ready.latch .stackExhaustion).fault = some .stackExhaustion ∧
    (ready.latch .stackUnderflow).fault = some .stackUnderflow ∧
    (ready.latch (.unimplementedOpcode 0xFFFF)).fault = some (.unimplementedOpcode 0xFFFF) ∧
    faultValid (ready.latch .boundsViolation) = true ∧ Command.tick 0 ≠ .reset := by decide

theorem witness_KeypressSetsOneFlag :
    ready.fault = none ∧ (ready.latch .boundsViolation).fault ≠ none ∧
    perform .tickTimers (withKey 4 ready) = .next (withKey 4 ready) := ⟨rfl, by decide, rfl⟩

theorem witness_LoadCopiesImage :
    ready.fault = none ∧ Memory.wf ready.cfg.font ready.mem = true ∧
    [0x12#8].length ≤ 3584 ∧ 3584 < (List.replicate 3585 (0#8)).length :=
  ⟨rfl, rfl, by decide, by rw [List.length_replicate]; decide⟩

/-- The vector T21. -/
theorem witness_ParkedIsFixedPoint :
    (let s := wordAt 0x200 0x1200 ready
     s.parked = true ∧ s.fault = none ∧ s.pending = [] ∧ s.tail = .ticking) := by decide

theorem witness_PlacedWordRunsNext :
    Memory.wf ready.cfg.font ready.mem = true ∧ decodeTableWord 16 0x8124 = some (.addReg 1#4 2#4) := by
  decide

end Sys2Proof.Tests
end

section
/-! PROOFS. Control flow (`41_control_flow.md`). -/

namespace Sys2Proof.Machine

/-- An absolute jump's target always passes the PC check (`40_cycle.md` rule R70). -/
theorem addrWord_le (nnn : Addr) : (addrWord nnn).toNat ≤ 4095 := by
  rw [addrWord_toNat]
  exact Nat.le_of_lt_succ nnn.isLt

/-- The end of a tick whose handler writes only PC, when the new PC passes the check of rule R70. -/
theorem finish_self_sameButPc {s : State} {pc' : Nat} (h : pc' ≤ 4095) :
    ∃ t, finish s s pc' = .next t ∧ t.pc.toNat = pc' ∧ s.sameButPc t :=
  ⟨_, finish_ok h, toNat_ofNat_of_le h, rfl⟩

theorem exec_jp (nnn : Addr) (s : State) : exec (.jp nnn) s = finish s s (addrWord nnn).toNat := rfl

/-- Settles O25: the target is below 4096, so the end of the tick commits the jump (rules R70, R76). -/
theorem jumpGoesToTarget : Obligations.JumpGoesToTarget := by
  intro nnn s
  rw [exec_jp, ← addrWord_toNat nnn]
  exact finish_self_sameButPc (addrWord_le nnn)

end Sys2Proof.Machine
end

section
/-! PROOFS. Register loads, immediate addition and logic (`42_alu.md`). -/

namespace Sys2Proof.Machine

/-! ### The six meanings as one write of VX -/

theorem exec_ldImm (x : Reg) (nn : Byte) (s : State) :
    exec (.ldImm x nn) s = advance s (s.writeV x nn) := rfl

theorem exec_addImm (x : Reg) (nn : Byte) (s : State) :
    exec (.addImm x nn) s = advance s (s.writeV x (s.readV x + nn)) := rfl

theorem exec_ldReg (x y : Reg) (s : State) :
    exec (.ldReg x y) s = advance s (s.writeV x (s.readV y)) := rfl

theorem exec_orReg (x y : Reg) (s : State) :
    exec (.orReg x y) s = advance s (s.writeV x (s.readV x ||| s.readV y)) := rfl

theorem exec_andReg (x y : Reg) (s : State) :
    exec (.andReg x y) s = advance s (s.writeV x (s.readV x &&& s.readV y)) := rfl

theorem exec_xorReg (x y : Reg) (s : State) :
    exec (.xorReg x y) s = advance s (s.writeV x (s.readV x ^^^ s.readV y)) := rfl

/-! ### What such an instruction commits -/

/-- With room to advance, the end of a tick commits the handler's state 2 further (`40_cycle.md` rules
R69, R70). -/
theorem advance_ok {before after : State} (hroom : before.pc.toNat + 2 ≤ 4095) :
    advance before after =
      .next { after with pc := BitVec.ofNat 16 (before.pc.toNat + 2), toneEvent := false } :=
  finish_ok hroom

/-- An instruction that only writes VX: VX holds the byte, every other register and all else stand. -/
theorem exec_next_of_writeV {i : Instr} {s : State} {x : Reg} {b : Byte}
    (hi : exec i s = advance s (s.writeV x b)) (hroom : s.pc.toNat + 2 ≤ 4095) :
    ∃ t, exec i s = .next t ∧ t.pc.toNat = s.pc.toNat + 2 ∧ s.sameButPc { t with v := s.v } ∧
      t.readV x = b ∧ ∀ r, r ≠ x → t.readV r = s.readV r := by
  refine ⟨_, hi.trans (advance_ok hroom), toNat_ofNat_of_le hroom, rfl, ?_, fun r hr => ?_⟩
  · exact State.readV_writeV_self s x b
  · exact (State.readV_writeV s x r b).trans (if_neg hr)

/-- Settles O31: both are one write of VX, and the byte addition is the sum modulo 256 (rules R90, R91). -/
theorem immediateLoadAndAdd : Obligations.ImmediateLoadAndAdd := by
  intro x nn s hroom
  constructor
  · exact exec_next_of_writeV (exec_ldImm x nn s) hroom
  · obtain ⟨t, ht, hpc, hframe, hx, hother⟩ := exec_next_of_writeV (exec_addImm x nn s) hroom
    exact ⟨t, ht, hpc, hframe, by rw [hx, BitVec.toNat_add], hother⟩

/-- Settles O32: each is one write of VX, and bit k of the byte written is the operation on the two bits k
(rules R92 to R95). -/
theorem copyAndLogic : Obligations.CopyAndLogic := by
  intro x y s hroom
  refine ⟨exec_next_of_writeV (exec_ldReg x y s) hroom, ?or, ?and, ?xor⟩
  case or =>
    obtain ⟨t, ht, hpc, hframe, hx, hother⟩ := exec_next_of_writeV (exec_orReg x y s) hroom
    exact ⟨t, ht, hpc, hframe, fun k _ => by rw [hx, BitVec.getLsbD_or], hother⟩
  case and =>
    obtain ⟨t, ht, hpc, hframe, hx, hother⟩ := exec_next_of_writeV (exec_andReg x y s) hroom
    exact ⟨t, ht, hpc, hframe, fun k _ => by rw [hx, BitVec.getLsbD_and], hother⟩
  case xor =>
    obtain ⟨t, ht, hpc, hframe, hx, hother⟩ := exec_next_of_writeV (exec_xorReg x y s) hroom
    exact ⟨t, ht, hpc, hframe, fun k _ => by rw [hx, BitVec.getLsbD_xor], hother⟩

end Sys2Proof.Machine
end

section
/-! PROOFS. Clearing the screen (`44_display.md`). -/

namespace Sys2Proof.Machine

/-- The handler writes the display alone; PC is left to the end of the tick (rules R125, R69). -/
theorem exec_cls (s : State) : exec .cls s = advance s { s with display := blankDisplay } := rfl

/-- Settles O43: the tick commits the blank display, whose cells are all false, 2 further (rule R125). -/
theorem clearScreen : Obligations.ClearScreen := by
  intro s hroom
  refine ⟨_, (exec_cls s).trans (advance_ok hroom), toNat_ofNat_of_le hroom, ?cells, ?frame⟩
  case cells => exact blankDisplay_cell
  case frame => rfl

end Sys2Proof.Machine
end

section
/-! PROOFS. The rows of the opcode table and the decoder (`30_encoding.md` rules R54, R55): a word decodes
exactly when it meets some row's mask and match. -/

namespace Sys2Proof

open Laws.FitsTableRow (mask_address mask_registers mask_suffix)

/-! ### A word and its fields -/

theorem fieldOP_append_fieldNNN (w : Word) : fieldOP w ++ fieldNNN w = w :=
  BitVec.extractLsb'_append_extractLsb'

theorem fieldOP_append_fieldX (w : Word) : fieldOP w ++ fieldX w = highByte w :=
  BitVec.extractLsb'_append_extractLsb'_eq_extractLsb' rfl

theorem fieldOP_append_fieldX_append_fieldNN (w : Word) : fieldOP w ++ fieldX w ++ fieldNN w = w := by
  rw [fieldOP_append_fieldX]
  exact BitVec.extractLsb'_append_extractLsb'

theorem fields_append (w : Word) : fieldOP w ++ fieldX w ++ fieldY w ++ fieldN w = w := by
  rw [fieldOP_append_fieldX, show highByte w ++ fieldY w = w.extractLsb' 4 12 from
    BitVec.extractLsb'_append_extractLsb'_eq_extractLsb' rfl]
  exact BitVec.extractLsb'_append_extractLsb'

/-! ### Meeting a row's mask and match, in the fields the decoder tests -/

/-- A mask of ones over a field leaves the field as it is. -/
theorem extractLsb'_and_of_allOnes {m : Word} {start len : Nat}
    (hm : m.extractLsb' start len = BitVec.allOnes len) (w : Word) :
    (w &&& m).extractLsb' start len = w.extractLsb' start len := by
  rw [BitVec.extractLsb'_and, hm, BitVec.and_allOnes]

/-- A mask of the opcode nibble alone. -/
theorem and_F000_eq_iff {w p : Word} (hp : p &&& 0xF000#16 = p) :
    w &&& 0xF000#16 = p ↔ (fieldOP w).toNat = (fieldOP p).toNat := by
  have key (v : Word) : v &&& 0xF000#16 = fieldOP v ++ 0#12 := by
    rw [← mask_address _ (fieldNNN v), fieldOP_append_fieldNNN]
  constructor
  · rintro rfl
    exact congrArg _ (extractLsb'_and_of_allOnes rfl w).symm
  · intro hop
    rw [← hp, key, key, BitVec.eq_of_toNat_eq hop]

/-- A mask of the opcode nibble and the low nibble. -/
theorem and_F00F_eq_iff {w p : Word} (hp : p &&& 0xF00F#16 = p) :
    w &&& 0xF00F#16 = p ↔
      (fieldOP w).toNat = (fieldOP p).toNat ∧ (fieldN w).toNat = (fieldN p).toNat := by
  have key (v : Word) : v &&& 0xF00F#16 = fieldOP v ++ 0#4 ++ 0#4 ++ fieldN v := by
    rw [← mask_registers _ (fieldX v) (fieldY v), fields_append]
  constructor
  · rintro rfl
    exact ⟨congrArg _ (extractLsb'_and_of_allOnes rfl w).symm,
      congrArg _ (extractLsb'_and_of_allOnes rfl w).symm⟩
  · rintro ⟨hop, hn⟩
    rw [← hp, key, key, BitVec.eq_of_toNat_eq hop, BitVec.eq_of_toNat_eq hn]

/-- A mask of the opcode nibble and the low byte. -/
theorem and_F0FF_eq_iff {w p : Word} (hp : p &&& 0xF0FF#16 = p) :
    w &&& 0xF0FF#16 = p ↔
      (fieldOP w).toNat = (fieldOP p).toNat ∧ (fieldNN w).toNat = (fieldNN p).toNat := by
  have key (v : Word) : v &&& 0xF0FF#16 = fieldOP v ++ 0#4 ++ fieldNN v := by
    rw [← mask_suffix _ (fieldX v), fieldOP_append_fieldX_append_fieldNN]
  constructor
  · rintro rfl
    exact ⟨congrArg _ (extractLsb'_and_of_allOnes rfl w).symm,
      congrArg _ (extractLsb'_and_of_allOnes rfl w).symm⟩
  · rintro ⟨hop, hnn⟩
    rw [← hp, key, key, BitVec.eq_of_toNat_eq hop, BitVec.eq_of_toNat_eq hnn]

/-! ### The decoder selects a row that the word meets -/

theorem decodeFamily0_selects {w : Word} {i : Instr} (h : decodeFamily0 w = some i) :
    w &&& i.op.mask = i.op.pattern := by
  unfold decodeFamily0 at h
  split at h
  · next hw => cases h; rw [hw]; rfl
  · split at h
    · next hw => cases h; rw [hw]; rfl
    · cases h

theorem decodeFamily8_selects {w : Word} {i : Instr} (hop : (fieldOP w).toNat = 0x8)
    (h : decodeFamily8 w = some i) : w &&& i.op.mask = i.op.pattern := by
  unfold decodeFamily8 at h
  split at h <;> cases h
  all_goals
    dsimp only [Instr.op]
    exact (and_F00F_eq_iff rfl).2 ⟨hop, ‹_›⟩

theorem decodeFamilyE_selects {w : Word} {i : Instr} (hop : (fieldOP w).toNat = 0xE)
    (h : decodeFamilyE w = some i) : w &&& i.op.mask = i.op.pattern := by
  unfold decodeFamilyE at h
  split at h <;> cases h
  all_goals
    dsimp only [Instr.op]
    exact (and_F0FF_eq_iff rfl).2 ⟨hop, ‹_›⟩

theorem decodeFamilyF_selects {w : Word} {i : Instr} (hop : (fieldOP w).toNat = 0xF)
    (h : decodeFamilyF w = some i) : w &&& i.op.mask = i.op.pattern := by
  unfold decodeFamilyF at h
  split at h <;> cases h
  all_goals
    dsimp only [Instr.op]
    exact (and_F0FF_eq_iff rfl).2 ⟨hop, ‹_›⟩

/-- A word that decodes meets the row of the instruction it decodes to. -/
theorem decodeWord_selects {w : Word} {i : Instr} (h : decodeWord w = some i) :
    w &&& i.op.mask = i.op.pattern := by
  unfold decodeWord at h
  split at h
  -- the families with a sub-opcode (0, 8, E, F, then 5 and 9), then those of one row each
  case h_1 => exact decodeFamily0_selects h
  case h_9 hop => exact decodeFamily8_selects hop h
  case h_15 hop => exact decodeFamilyE_selects hop h
  case h_16 hop => exact decodeFamilyF_selects hop h
  case h_6 hop | h_10 hop =>
    split at h <;> cases h
    next hn =>
      dsimp only [Instr.op]
      exact (and_F00F_eq_iff rfl).2 ⟨hop, congrArg BitVec.toNat hn⟩
  all_goals cases h
  all_goals
    dsimp only [Instr.op]
    exact (and_F000_eq_iff rfl).2 ‹_›

/-! ### A word that meets a row decodes to an instruction of that row -/

theorem decodeWord_of_selected {w : Word} {o : Op} (h : w &&& o.mask = o.pattern) :
    (decodeWord w).map Instr.op = some o := by
  cases o
  case cls | ret => rw [show w = _ from BitVec.and_allOnes.symm.trans h]; rfl
  case jp | call | seImm | sneImm | ldImm | addImm | ldI | jpV0 | rnd | drw =>
    rw [decodeWord, (and_F000_eq_iff rfl).1 h]; rfl
  case seReg | sneReg =>
    obtain ⟨hop, hn⟩ := (and_F00F_eq_iff rfl).1 h
    rw [decodeWord, hop, BitVec.eq_of_toNat_eq hn]; rfl
  case skp | sknp =>
    obtain ⟨hop, hnn⟩ := (and_F0FF_eq_iff rfl).1 h
    rw [decodeWord, hop]
    show (decodeFamilyE w).map _ = _
    rw [decodeFamilyE, hnn]; rfl
  case ldVxDt | ldVxKey | ldDtVx | ldStVx | addI | ldFont | ldBcd | storeRegs | loadRegs =>
    obtain ⟨hop, hnn⟩ := (and_F0FF_eq_iff rfl).1 h
    rw [decodeWord, hop]
    show (decodeFamilyF w).map _ = _
    rw [decodeFamilyF, hnn]; rfl
  all_goals
    obtain ⟨hop, hn⟩ := (and_F00F_eq_iff rfl).1 h
    rw [decodeWord, hop]
    show (decodeFamily8 w).map _ = _
    rw [decodeFamily8, hn]; rfl

/-- A word is no instruction exactly when it matches no row (`30_encoding.md` rule R55). -/
theorem decodeWord_eq_none_iff {w : Word} :
    decodeWord w = none ↔ ∀ o : Op, w &&& o.mask ≠ o.pattern := by
  constructor
  · intro hd o ho
    have hmap := decodeWord_of_selected ho
    rw [hd] at hmap
    cases hmap
  · intro hno
    cases hd : decodeWord w with
    | none => rfl
    | some i => exact absurd (decodeWord_selects hd) (hno i.op)

end Sys2Proof
end

section
/-! PROOFS. Which fatal condition is raised, and by what (`60_exceptions.md` rules R151 to R154). -/

namespace Sys2Proof.Machine

/-! ### What an instruction, a tick and the other commands can raise -/

/-- From an unfaulted state an instruction raises a bounds violation or the condition of its own handler. -/
theorem exec_raises {i : Instr} {s t : State} {f : Fault} (hf : s.fault = none) (h : exec i s = .next t)
    (ht : t.fault = some f) :
    f = .boundsViolation ∨ (f = .stackExhaustion ∧ s.sp.val = 16 ∧ ∃ nnn, i = .call nnn) ∨
      (f = .stackUnderflow ∧ s.sp.val = 0 ∧ i = .ret) := by
  rcases exec_cases h with ⟨g, hg, rfl⟩ | ⟨a, pc', -, -, rfl⟩ | ⟨a, pc', ha, -, rfl⟩
  · cases ht
    exact handler_error_cases hg
  · cases ht
    exact .inl rfl
  · have hkept : a.fault = some f := ht
    rw [(handler_keeps ha).1, hf] at hkept
    cases hkept

/-- The conditions a tick from s can raise, each with what the spec names as its cause. -/
inductive TickRaises (s : State) : Fault → Prop where
  | boundsViolation : TickRaises s .boundsViolation
  | stackExhaustion (nnn : Addr) (hi : s.nextInstr = some (.call nnn)) (hsp : s.sp.val = 16) :
    TickRaises s .stackExhaustion
  | stackUnderflow (hi : s.nextInstr = some .ret) (hsp : s.sp.val = 0) : TickRaises s .stackUnderflow
  | unimplementedOpcode (hpc : s.pc.toNat ≤ 4094) (hd : decodeWord s.wordAtPc = none) :
    TickRaises s (.unimplementedOpcode s.wordAtPc)

theorem tick_raises {s t : State} {f : Fault} (hf : s.fault = none) (h : tick s = .next t)
    (ht : t.fault = some f) : TickRaises s f := by
  rcases tick_cases h with ⟨hne, -⟩ | ⟨-, -, rfl⟩ | ⟨-, hpc, hd, rfl⟩ | ⟨-, i, hi, hx⟩
  · exact absurd hf hne
  · cases ht
    exact .boundsViolation
  · cases ht
    exact .unimplementedOpcode hpc hd
  · rcases exec_raises hf hx ht with rfl | ⟨rfl, hsp, nnn, rfl⟩ | ⟨rfl, hsp, rfl⟩
    · exact .boundsViolation
    · exact .stackExhaustion nnn hi hsp
    · exact .stackUnderflow hi hsp

/-- No command but the tick raises anything but the bounds violation of `load`. -/
theorem perform_raises {s t : State} {c : Command} {f : Fault} (hf : s.fault = none)
    (hc : ∀ b, c ≠ .tick b) (h : perform c s = .next t) (ht : t.fault = some f) : f = .boundsViolation := by
  cases c with
  | tick b => exact absurd rfl (hc b)
  | tickTimers | keypress =>
    simp only [perform, unlessFaulted_none hf] at h
    cases h
    cases hf.symm.trans ht
  | load bytes =>
    simp only [perform, unlessFaulted_none hf] at h
    rcases attempt_cases h with ⟨u, hu, hn⟩ | ⟨g, hg, rfl⟩
    · obtain ⟨rfl, -⟩ := State.memWrite_eq_ok hu
      cases hn
      cases hf.symm.trans ((State.pokeBytes_fault ..).symm.trans ht)
    · cases ht
      exact (State.memWrite_eq_error hg).1
  | reset =>
    cases h
    cases ht
  | none =>
    cases h
    cases hf.symm.trans ht

/-! ### What raises each condition -/

theorem tick_of_decodeWord_none {s : State} (hf : s.fault = none) (hpc : s.pc.toNat ≤ 4094)
    (hd : decodeWord s.wordAtPc = none) : tick s = .next (s.latch (.unimplementedOpcode s.wordAtPc)) := by
  simp only [tick, unlessFaulted_none hf, fetch_ok hpc, attempt_ok, dispatch, hd, attempt_error]

theorem exec_call_of_full {s : State} (nnn : Addr) (hsp : s.sp.val = 16) :
    exec (.call nnn) s = .next (s.latch .stackExhaustion) := by
  rw [exec, execCall, State.push_error _ (by omega), attempt_error]

theorem exec_ret_of_empty {s : State} (hsp : s.sp.val = 0) :
    exec .ret s = .next (s.latch .stackUnderflow) := by
  rw [exec, execRet, State.pop_error hsp, attempt_error]

/-- A tick answers one state: where it latches f, every state it answers holds f. -/
theorem fault_of_tick_latch {s t : State} {f : Fault} (hl : tick s = .next (s.latch f))
    (h : tick s = .next t) : t.fault = some f := by
  cases hl.symm.trans h
  rfl

/-- Settles O8: of all a tick can raise only a word that decodes to nothing records itself, a word decodes to
nothing exactly when it matches no row, and no other command raises it (rule R154). -/
theorem unimplementedOpcodeExactly : Obligations.UnimplementedOpcodeExactly := by
  refine ⟨fun s t w hf h => ⟨fun ht => ?raised, fun ⟨hpc, hw, hno⟩ => ?raises⟩, fun t w ht => ?shown,
    fun s t c w hf hc h ht => ?others⟩
  case raised =>
    cases tick_raises hf h ht with
    | unimplementedOpcode hpc hd => exact ⟨hpc, rfl, decodeWord_eq_none_iff.1 hd⟩
  case raises =>
    subst hw
    exact fault_of_tick_latch (tick_of_decodeWord_none hf hpc (decodeWord_eq_none_iff.2 hno)) h
  case shown => rw [faultWord, ht]; rfl
  case others => cases perform_raises hf hc h ht

/-- Settles O9: of all a tick can raise only a `CALL` with the stack full and a `RET` with it empty raise
these, and no other command does (rules R152, R153). -/
theorem stackFaultsExactly : Obligations.StackFaultsExactly := by
  refine ⟨fun s t hf h => ⟨⟨fun ht => ?full, fun ⟨⟨nnn, hi⟩, hsp⟩ => ?call⟩,
    ⟨fun ht => ?empty, fun ⟨hi, hsp⟩ => ?ret⟩⟩,
    fun s t c hf hc h => ⟨fun ht => ?hostFull, fun ht => ?hostEmpty⟩⟩
  case full =>
    cases tick_raises hf h ht with
    | stackExhaustion nnn hi hsp => exact ⟨⟨nnn, hi⟩, hsp⟩
  case call => exact fault_of_tick_latch ((tick_of_nextInstr hf hi).trans (exec_call_of_full nnn hsp)) h
  case empty =>
    cases tick_raises hf h ht with
    | stackUnderflow hi hsp => exact ⟨hi, hsp⟩
  case ret => exact fault_of_tick_latch ((tick_of_nextInstr hf hi).trans (exec_ret_of_empty hsp)) h
  case hostFull | hostEmpty => cases perform_raises hf hc h ht

end Sys2Proof.Machine
end

section
/-! PROOFS. Encoding and decoding (`30_encoding.md`): the fields of an encoded word, that the decoder and the
encoder undo each other, and the written forms. -/

namespace Sys2Proof

open Laws.FitsTableRow (nibble_and_ones fitsFields_cons fitsFields_nil)

/-! ### The fields of a word put together from its parts -/

@[simp] theorem fieldOP_address (c : Nibble) (nnn : Addr) : fieldOP (c ++ nnn : Word) = c :=
  BitVec.extractLsb'_append_eq_left

@[simp] theorem fieldNNN_address (c : Nibble) (nnn : Addr) : fieldNNN (c ++ nnn : Word) = nnn :=
  BitVec.extractLsb'_append_eq_right

@[simp] theorem fieldOP_bytes (c x : Nibble) (k : Byte) : fieldOP (c ++ x ++ k : Word) = c :=
  (BitVec.extractLsb'_append_eq_of_le (by decide)).trans BitVec.extractLsb'_append_eq_left

@[simp] theorem fieldX_bytes (c x : Nibble) (k : Byte) : fieldX (c ++ x ++ k : Word) = x :=
  (BitVec.extractLsb'_append_eq_of_le (by decide)).trans BitVec.extractLsb'_append_eq_right

@[simp] theorem fieldNN_bytes (c x : Nibble) (k : Byte) : fieldNN (c ++ x ++ k : Word) = k :=
  BitVec.extractLsb'_append_eq_right

@[simp] theorem fieldN_bytes (c x : Nibble) (k : Byte) : fieldN (c ++ x ++ k : Word) = k.extractLsb' 0 4 :=
  BitVec.extractLsb'_append_eq_of_add_le (by decide)

@[simp] theorem fieldOP_nibbles (c x y n : Nibble) : fieldOP (c ++ x ++ y ++ n : Word) = c :=
  (BitVec.extractLsb'_append_eq_of_le (by decide)).trans
    ((BitVec.extractLsb'_append_eq_of_le (by decide)).trans BitVec.extractLsb'_append_eq_left)

@[simp] theorem fieldX_nibbles (c x y n : Nibble) : fieldX (c ++ x ++ y ++ n : Word) = x :=
  (BitVec.extractLsb'_append_eq_of_le (by decide)).trans
    ((BitVec.extractLsb'_append_eq_of_le (by decide)).trans BitVec.extractLsb'_append_eq_right)

@[simp] theorem fieldY_nibbles (c x y n : Nibble) : fieldY (c ++ x ++ y ++ n : Word) = y :=
  (BitVec.extractLsb'_append_eq_of_le (by decide)).trans BitVec.extractLsb'_append_eq_right

@[simp] theorem fieldN_nibbles (c x y n : Nibble) : fieldN (c ++ x ++ y ++ n : Word) = n :=
  BitVec.extractLsb'_append_eq_right

/-! ### Decoding what was encoded -/

@[simp] theorem wordOfBytes_highByte_lowByte (w : Word) : wordOfBytes (highByte w) (lowByte w) = w :=
  BitVec.extractLsb'_append_extractLsb'

theorem decodeWord_encodeWord (i : Instr) : decodeWord (encodeWord i) = some i := by
  cases i
  case cls | ret => rfl
  case ldReg | orReg | andReg | xorReg | addReg | subReg | shr | subnReg | shl =>
    simp [encodeWord, decodeWord, decodeFamily8]
  case skp | sknp => simp [encodeWord, decodeWord, decodeFamilyE]
  case ldVxDt | ldVxKey | ldDtVx | ldStVx | addI | ldFont | ldBcd | storeRegs | loadRegs =>
    simp [encodeWord, decodeWord, decodeFamilyF]
  all_goals simp [encodeWord, decodeWord]

/-- Settles O2: the two bytes make up the word again, and each field of the word is the operand put there
(rules R50, R51, R54). -/
theorem decodeOfEncode : Obligations.DecodeOfEncode := by
  intro i rest _
  show decode (highByte (encodeWord i) :: lowByte (encodeWord i) :: rest) = _
  rw [decode, wordOfBytes_highByte_lowByte, decodeWord_encodeWord]


/-! ### Encoding what was decoded -/

theorem address_word {w : Word} {c : Nibble} (hop : (fieldOP w).toNat = c.toNat) :
    (c ++ fieldNNN w : Word) = w := by
  rw [← BitVec.eq_of_toNat_eq hop, fieldOP_append_fieldNNN]

theorem immediate_word {w : Word} {c : Nibble} {nn : Byte} (hop : (fieldOP w).toNat = c.toNat)
    (hnn : (fieldNN w).toNat = nn.toNat) : (c ++ fieldX w ++ nn : Word) = w := by
  rw [← BitVec.eq_of_toNat_eq hop, ← BitVec.eq_of_toNat_eq hnn, fieldOP_append_fieldX_append_fieldNN]

theorem registers_word {w : Word} {c n : Nibble} (hop : (fieldOP w).toNat = c.toNat)
    (hn : (fieldN w).toNat = n.toNat) : (c ++ fieldX w ++ fieldY w ++ n : Word) = w := by
  rw [← BitVec.eq_of_toNat_eq hop, ← BitVec.eq_of_toNat_eq hn, fields_append]

theorem fieldY_append_fieldN (w : Word) : fieldY w ++ fieldN w = fieldNN w :=
  BitVec.extractLsb'_append_extractLsb'_eq_extractLsb' rfl

/-- The word of a shift is the word decoded with its Y nibble cleared (`30_encoding.md` rule R56). -/
theorem shift_word {w : Word} {c n : Nibble} (hop : (fieldOP w).toNat = c.toNat)
    (hn : (fieldN w).toNat = n.toNat) : (c ++ fieldX w ++ (0#4 ++ n : Byte) : Word) = w &&& 0xFF0F#16 := by
  have hlow : fieldNN w &&& 0x0F#8 = 0#4 ++ n := by
    rw [← fieldY_append_fieldN, show (0x0F#8 : Byte) = 0#4 ++ 0xF#4 from rfl, BitVec.and_append,
      nibble_and_ones, BitVec.and_zero, BitVec.eq_of_toNat_eq hn]
  conv_rhs => rw [← fieldOP_append_fieldX_append_fieldNN w]
  rw [show (0xFF0F#16 : Word) = 0xF#4 ++ 0xF#4 ++ 0x0F#8 from rfl, BitVec.and_append, BitVec.and_append,
    nibble_and_ones, nibble_and_ones, hlow, BitVec.eq_of_toNat_eq hop]

/-- The word that a decoded instruction must encode to: w, but for the Y nibble of a shift. -/
def emittedWord (i : Instr) (w : Word) : Word :=
  if i.op = .shr ∨ i.op = .shl then w &&& 0xFF0F#16 else w

theorem encodeWord_of_decodeFamily0 {w : Word} {i : Instr} (h : decodeFamily0 w = some i) :
    encodeWord i = emittedWord i w := by
  unfold decodeFamily0 at h
  split at h
  · next hw => cases h; exact hw.symm
  · split at h
    · next hw => cases h; exact hw.symm
    · cases h

theorem encodeWord_of_decodeFamily8 {w : Word} {i : Instr} (hop : (fieldOP w).toNat = 0x8)
    (h : decodeFamily8 w = some i) : encodeWord i = emittedWord i w := by
  unfold decodeFamily8 at h
  split at h <;> cases h
  case h_7 hn => exact shift_word (n := 0x6#4) hop hn
  case h_9 hn => exact shift_word (n := 0xE#4) hop hn
  all_goals exact registers_word hop ‹_›

theorem encodeWord_of_decodeFamilyE {w : Word} {i : Instr} (hop : (fieldOP w).toNat = 0xE)
    (h : decodeFamilyE w = some i) : encodeWord i = emittedWord i w := by
  unfold decodeFamilyE at h
  split at h <;> cases h
  all_goals exact immediate_word hop ‹_›

theorem encodeWord_of_decodeFamilyF {w : Word} {i : Instr} (hop : (fieldOP w).toNat = 0xF)
    (h : decodeFamilyF w = some i) : encodeWord i = emittedWord i w := by
  unfold decodeFamilyF at h
  split at h <;> cases h
  all_goals exact immediate_word hop ‹_›

/-- Settles O3: the word is its fields put together, and the fields that are no operand are those of the row
(rules R51, R54); of a shift the Y nibble is emitted as 0 (rule R56). -/
theorem encodeOfDecode : Obligations.EncodeOfDecode := by
  intro w i h
  show encodeWord i = emittedWord i w
  unfold decodeWord at h
  split at h
  -- the families with a sub-opcode (0, 8, E, F), then those of one row, by the shape of their operands
  case h_1 => exact encodeWord_of_decodeFamily0 h
  case h_9 hop => exact encodeWord_of_decodeFamily8 hop h
  case h_15 hop => exact encodeWord_of_decodeFamilyE hop h
  case h_16 hop => exact encodeWord_of_decodeFamilyF hop h
  case h_6 hop | h_10 hop =>
    split at h <;> cases h
    next hn => exact registers_word hop (congrArg BitVec.toNat hn)
  case h_2 hop | h_3 hop | h_11 hop | h_12 hop => cases h; exact address_word hop
  case h_4 hop | h_5 hop | h_7 hop | h_8 hop | h_13 hop => cases h; exact immediate_word hop rfl
  case h_14 hop => cases h; exact registers_word hop rfl
  case h_17 => cases h

/-- Settles O4: a word that decodes meets the row of its instruction, and a word that meets a row decodes to an
instruction of that row (rules R54, R55). -/
theorem decodeIsTheOpcodeTable : Obligations.DecodeIsTheOpcodeTable := by
  intro w o
  constructor
  · intro h
    obtain ⟨i, hi, rfl⟩ := Option.map_eq_some_iff.1 h
    exact decodeWord_selects hi
  · exact decodeWord_of_selected

/-- Settles O1: each decoding is one evaluation of the decoder. -/
theorem specWordsDecode : Obligations.SpecWordsDecode := by
  unfold Obligations.SpecWordsDecode
  decide

/-! ### Written forms -/

theorem fitsFields_cons_iff {w : Nat} {ws ns : List Nat} :
    fitsFields (w :: ws) ns = true ↔ ∃ n rest, ns = n :: rest ∧ n < 2 ^ w ∧ fitsFields ws rest = true := by
  cases ns <;> simp [fitsFields]

theorem fitsFields_nil_iff {ns : List Nat} : fitsFields [] ns = true ↔ ns = [] := by
  cases ns <;> simp [fitsFields]

/-- The fields of an instruction have the widths of its format (`30_encoding.md` rule R53). -/
theorem source_wellFormed (i : Instr) : i.source.wellFormed = true := by
  cases i
  case cls | ret => rfl
  case drw =>
    exact fitsFields_cons (BitVec.isLt _)
      (fitsFields_cons (BitVec.isLt _) (fitsFields_cons (BitVec.isLt _) fitsFields_nil))
  case seImm | sneImm | ldImm | addImm | rnd | seReg | sneReg | ldReg | orReg | andReg | xorReg | addReg |
      subReg | subnReg =>
    exact fitsFields_cons (BitVec.isLt _) (fitsFields_cons (BitVec.isLt _) fitsFields_nil)
  all_goals exact fitsFields_cons (BitVec.isLt _) fitsFields_nil

theorem source_instr (i : Instr) : i.source.instr = some i := by
  rw [Source.instr, if_pos (source_wellFormed i)]
  cases i <;> simp [Instr.source, Instr.op, Instr.operands]

/-- A written form that passes the check stands for an instruction whose written form it is: each number is
its field's value, since it is below the field's bound. -/
theorem instr_of_wellFormed {src : Source} (h : src.wellFormed = true) :
    ∃ i, src.instr = some i ∧ i.source = src := by
  rw [Source.instr, if_pos h]
  obtain ⟨op, operands⟩ := src
  have hfits : fitsFields op.format.widths operands = true := h
  cases op
  case cls | ret =>
    obtain rfl := fitsFields_nil_iff.1 hfits
    exact ⟨_, rfl, rfl⟩
  case drw =>
    obtain ⟨x, _, rfl, hx, hfits⟩ := fitsFields_cons_iff.1 hfits
    obtain ⟨y, _, rfl, hy, hfits⟩ := fitsFields_cons_iff.1 hfits
    obtain ⟨n, _, rfl, hn, hfits⟩ := fitsFields_cons_iff.1 hfits
    obtain rfl := fitsFields_nil_iff.1 hfits
    exact ⟨_, rfl, by simpa [Instr.source, Instr.op, Instr.operands] using ⟨hx, hy, hn⟩⟩
  case seImm | sneImm | ldImm | addImm | rnd | seReg | sneReg | ldReg | orReg | andReg | xorReg | addReg |
      subReg | subnReg =>
    obtain ⟨x, _, rfl, hx, hfits⟩ := fitsFields_cons_iff.1 hfits
    obtain ⟨n, _, rfl, hn, hfits⟩ := fitsFields_cons_iff.1 hfits
    obtain rfl := fitsFields_nil_iff.1 hfits
    exact ⟨_, rfl, by simpa [Instr.source, Instr.op, Instr.operands] using ⟨hx, hn⟩⟩
  all_goals
    obtain ⟨n, _, rfl, hn, hfits⟩ := fitsFields_cons_iff.1 hfits
    obtain rfl := fitsFields_nil_iff.1 hfits
    exact ⟨_, rfl, by simpa [Instr.source, Instr.op, Instr.operands] using hn⟩

theorem instr_eq_none {src : Source} (h : src.wellFormed = false) : src.instr = none :=
  if_neg (by simp [h])

/-- Settles O5: a form that passes the check has the operands of its format, each its field's value, and one
that does not has no instruction (rules R53, R58). -/
theorem writtenFormNeverTruncated : Obligations.WrittenFormNeverTruncated := by
  refine ⟨source_instr, fun src i hi => ?_, fun src h => ?_, fun src => instr_eq_none⟩
  · cases hwf : src.wellFormed with
    | false => cases (instr_eq_none hwf).symm.trans hi
    | true =>
      obtain ⟨j, hj, hsrc⟩ := instr_of_wellFormed hwf
      cases hj.symm.trans hi
      exact hsrc
  · obtain ⟨i, hi, -⟩ := instr_of_wellFormed h
    exact ⟨i, hi⟩

end Sys2Proof
end

section
/-! PROOFS. What an instruction and a command can answer, what a handler leaves unchanged (`10_state.md` rule
R24), and the invariant: memory canonical, PC in memory, held return addresses, quiet faults. -/

namespace Sys2Proof.Machine

/-- An instruction raises a fatal condition or commits what its handler wrote, with PC in memory. -/
theorem exec_raises_or_commits {i : Instr} {s t : State} (h : exec i s = .next t) :
    (∃ f, t = s.latch f) ∨
    (∃ a pc', handler i s = .ok (a, pc') ∧ pc' ≤ 4095 ∧
      t = { a with pc := BitVec.ofNat 16 pc', toneEvent := false }) := by
  rcases exec_cases h with ⟨f, -, ht⟩ | ⟨_, _, -, -, ht⟩ | hcommit
  · exact .inl ⟨f, ht⟩
  · exact .inl ⟨_, ht⟩
  · exact .inr hcommit

/-- What each command of the host can answer (`10_state.md` rule R21). -/
inductive Performs (s : State) : Command → State → Prop where
  | tick (b : Byte) (u : State) (hu : tick { s with rnd := some b } = .next u) :
    Performs s (.tick b) { u with rnd := none }
  | ignored (c : Command) (hf : s.fault ≠ none) : Performs s c { s with toneEvent := false }
  | tickTimers (hf : s.fault = none) :
    Performs s .tickTimers { s with dt := countDown s.dt, st := countDown s.st, toneEvent := s.st == 1 }
  | keypress (k : Nibble) (p : Bool) (hf : s.fault = none) :
    Performs s (.keypress k p) { s with keys := s.keys.set k.toNat p k.isLt, toneEvent := false }
  | loaded (bytes : List Byte) (hfits : 0x200 + bytes.length ≤ 4096) :
    Performs s (.load bytes) { State.pokeBytes 0x200 bytes s with toneEvent := false }
  | loadTraps (bytes : List Byte) : Performs s (.load bytes) (s.latch .boundsViolation)
  | reset : Performs s .reset (resetMachine s)
  | none : Performs s .none { s with toneEvent := false }

theorem performs_of_perform {c : Command} {s t : State} (h : perform c s = .next t) : Performs s c t := by
  cases c with
  | tick b =>
    obtain ⟨u, hu, rfl⟩ := releaseRnd_next h
    exact .tick b u hu
  | tickTimers =>
    rcases unlessFaulted_cases h with ⟨hf, rfl⟩ | ⟨hf, ht⟩
    · exact .ignored _ hf
    · cases ht; exact .tickTimers hf
  | keypress k p =>
    rcases unlessFaulted_cases h with ⟨hf, rfl⟩ | ⟨hf, ht⟩
    · exact .ignored _ hf
    · cases ht; exact .keypress k p hf
  | load bytes =>
    rcases unlessFaulted_cases h with ⟨hf, rfl⟩ | ⟨-, hload⟩
    · exact .ignored _ hf
    · rcases attempt_cases hload with ⟨u, hu, ht⟩ | ⟨f, hf, rfl⟩
      · obtain ⟨rfl, hfits⟩ := State.memWrite_eq_ok hu
        cases ht
        exact .loaded bytes (by omega)
      · obtain ⟨rfl, -⟩ := State.memWrite_eq_error hf
        exact .loadTraps bytes
  | reset => cases h; exact .reset
  | none => cases h; exact .none

/-! ### Frame of the handlers -/

/-- Each column of the access matrix but V, which only the instructions with a `w` in it write, and the model's
count of free draws (log entry 4). -/
structure HandlerFrame (o : Op) (s a : State) : Prop where
  i : o ∉ [.ldI, .addI, .ldFont] → a.i = s.i
  stack : o ≠ .call → a.stack = s.stack
  sp : o ∉ [.call, .ret] → a.sp = s.sp
  mem : o ∉ [.ldBcd, .storeRegs] → a.mem = s.mem
  display : o ∉ [.cls, .drw] → a.display = s.display
  dt : o ≠ .ldDtVx → a.dt = s.dt
  st : o ≠ .ldStVx → a.st = s.st
  draws : o ≠ .rnd → a.draws = s.draws

theorem handler_frame {i : Instr} {s a : State} {pc' : Nat} (h : handler i s = .ok (a, pc')) :
    HandlerFrame i.op s a := by
  cases i <;> simp only [handler] at h
  case ret =>
    obtain ⟨p, hp, he⟩ := map_eq_ok h
    obtain ⟨k, _, _, rfl⟩ := State.pop_eq_ok hp
    cases he
    constructor <;> simp [Instr.op]
  case call =>
    obtain ⟨p, hp, he⟩ := map_eq_ok h
    obtain ⟨_, rfl⟩ := State.push_eq_ok hp
    cases he
    constructor <;> simp [Instr.op]
  case ldVxKey => split at h <;> cases h <;> constructor <;> simp
  case ldBcd | storeRegs =>
    obtain ⟨t, ht, he⟩ := map_eq_ok h
    obtain ⟨rfl, _⟩ := State.memWrite_eq_ok ht
    cases he
    constructor <;> simp [Instr.op]
  case drw | skp | sknp | ldFont | loadRegs =>
    obtain ⟨x, _, he⟩ := map_eq_ok h
    cases he
    constructor <;> simp [Instr.op]
  all_goals
    cases h
    constructor <;> simp [Instr.op]

/-! ### The handlers and the invariant -/

theorem handler_memWf {i : Instr} {s a : State} {pc' : Nat} (hwf : Memory.wf s.cfg.font s.mem = true)
    (h : handler i s = .ok (a, pc')) : Memory.wf a.cfg.font a.mem = true := by
  by_cases hstore : i.op ∈ [.ldBcd, .storeRegs]
  · cases i <;> simp [Instr.op] at hstore
    case ldBcd | storeRegs =>
      obtain ⟨t, ht, he⟩ := map_eq_ok h
      cases he
      exact State.memWrite_wf hwf ht
  · obtain ⟨-, -, hcfg, -⟩ := handler_keeps h
    rw [hcfg, (handler_frame h).mem hstore]
    exact hwf

/-- Every held return address is the `npc` of a `CALL` (`41_control_flow.md` rule R75). -/
def State.HeldInRange (s : State) : Prop := ∀ k : Fin 16, k.val < s.sp.val → s.stack[k].toNat ≤ 4096

/-- A `CALL` that was fetched pushes at most 4096, and no other instruction makes an entry count as held. -/
theorem handler_heldInRange {i : Instr} {s a : State} {pc' : Nat} (hpc : s.pc.toNat ≤ 4094)
    (hheld : s.HeldInRange) (h : handler i s = .ok (a, pc')) : a.HeldInRange := by
  by_cases hstack : i.op ∈ [.call, .ret]
  · cases i <;> simp [Instr.op] at hstack
    case ret =>
      obtain ⟨p, hp, he⟩ := map_eq_ok h
      obtain ⟨n, _, hsp, rfl⟩ := State.pop_eq_ok hp
      cases he
      intro k hk
      exact hheld k (hsp ▸ Nat.lt_succ_of_lt hk)
    case call =>
      obtain ⟨t, ht, he⟩ := map_eq_ok h
      obtain ⟨_, rfl⟩ := State.push_eq_ok ht
      cases he
      intro k hk
      show (s.stack.set s.sp.val (BitVec.ofNat 16 s.npc))[k.val].toNat ≤ 4096
      rw [Vector.getElem_set]
      split
      · rw [BitVec.toNat_ofNat, State.npc]; omega
      · exact hheld k (by have : k.val < s.sp.val + 1 := hk; omega)
  · have hcall : i.op ≠ .call := fun e => hstack (by simp [e])
    have hframe := handler_frame h
    intro k hk
    rw [hframe.sp hstack] at hk
    simp only [hframe.stack hcall]
    exact hheld k hk

/-! ### Every operation keeps the invariant -/

/-- The invariant does not depend on the tone signal where it is 0. -/
theorem State.Inv.quiet {s : State} (h : s.Inv) : State.Inv { s with toneEvent := false } :=
  ⟨h.memWf, h.pcInMemory, h.heldAddresses, fun _ => rfl⟩

/-- Nor on the input port. -/
theorem State.Inv.withRnd {s : State} (h : s.Inv) (b : Option Byte) : State.Inv { s with rnd := b } :=
  ⟨h.memWf, h.pcInMemory, h.heldAddresses, h.faultQuiet⟩

/-- Nor on the schedule. -/
theorem State.Inv.withSchedule {s : State} (h : s.Inv) (commands : List Command) (tail : HostTail)
    (served : Nat) : (s.withSchedule commands tail served).Inv :=
  ⟨h.memWf, h.pcInMemory, h.heldAddresses, h.faultQuiet⟩

theorem State.Inv.latch {s : State} (h : s.Inv) (f : Fault) : (s.latch f).Inv :=
  ⟨h.memWf, h.pcInMemory, h.heldAddresses, fun _ => rfl⟩

theorem State.baseline_inv (cfg : Config) : (State.baseline cfg).Inv :=
  ⟨State.baseline_memWf cfg, (by decide : (0x200#16).toNat ≤ 4095),
    fun _ hk => absurd hk (Nat.not_lt_zero _), fun _ => rfl⟩

theorem nextInstr_eq_some {s : State} {i : Instr} (h : s.nextInstr = some i) :
    s.pc.toNat ≤ 4094 ∧ decodeWord s.wordAtPc = some i := by
  unfold State.nextInstr at h
  split at h
  · next hpc => exact ⟨hpc, h⟩
  · cases h

theorem exec_keeps_inv {i : Instr} {s t : State} (hinv : s.Inv) (hpc : s.pc.toNat ≤ 4094)
    (h : exec i s = .next t) : t.Inv := by
  rcases exec_raises_or_commits h with ⟨f, rfl⟩ | ⟨a, pc', ha, hpc', rfl⟩
  · exact hinv.latch f
  · have hwf : Memory.wf a.cfg.font a.mem = true := handler_memWf hinv.memWf ha
    have hheld : a.HeldInRange := handler_heldInRange hpc hinv.heldAddresses ha
    exact ⟨hwf, (toNat_ofNat_of_le hpc').trans_le hpc', hheld, fun _ => rfl⟩

theorem tick_keeps_inv {s t : State} (hinv : s.Inv) (h : tick s = .next t) : t.Inv := by
  rcases tick_cases h with ⟨-, rfl⟩ | ⟨-, -, rfl⟩ | ⟨-, -, -, rfl⟩ | ⟨-, i, hi, hx⟩
  · exact hinv.quiet
  · exact hinv.latch _
  · exact hinv.latch _
  · exact exec_keeps_inv hinv (nextInstr_eq_some hi).1 hx

/-- The machine after RESET is the baseline but for the schedule and the count of draws (log entry 14). -/
theorem resetMachine_inv (s : State) : (resetMachine s).Inv := by
  have h := State.baseline_inv s.cfg
  exact ⟨h.memWf, h.pcInMemory, h.heldAddresses, h.faultQuiet⟩

theorem perform_keeps_inv {c : Command} {s t : State} (hinv : s.Inv) (h : perform c s = .next t) : t.Inv := by
  cases performs_of_perform h with
  | tick b u hu => exact (tick_keeps_inv (hinv.withRnd (some b)) hu).withRnd none
  | ignored | none => exact hinv.quiet
  | tickTimers hf | keypress _ _ hf =>
    exact ⟨hinv.memWf, hinv.pcInMemory, hinv.heldAddresses, fun hne => absurd hf hne⟩
  | loaded bytes hfits =>
    rw [State.pokeBytes_eq]
    exact ⟨State.pokeBytes_wf hinv.memWf bytes _ hfits, hinv.pcInMemory, hinv.heldAddresses, fun _ => rfl⟩
  | loadTraps => exact hinv.latch _
  | reset => exact resetMachine_inv s

/-- Settles O15: a step is a tick or a command, under another schedule, and each keeps the invariant. -/
theorem stepKeepsInv : Obligations.StepKeepsInv := by
  intro s t hinv h
  rcases step_cases h with ⟨-, -, ht⟩ | ⟨c, commands, served, hc⟩
  · exact tick_keeps_inv hinv ht
  · exact perform_keeps_inv (hinv.withSchedule commands s.tail served) hc

/-- Settles O16: at the baseline memory lists nothing, PC is 0x200, no address is held, no fault is latched. -/
theorem resetMeetsInv : Obligations.ResetMeetsInv := by
  refine ⟨State.baseline_inv _, State.baseline_inv, fun s t h => ?_⟩
  cases h
  exact resetMachine_inv s

end Sys2Proof.Machine
end

section
/-! PROOFS. The cycle and the host's commands: every step answers, an instruction commits or faults precisely
(`40_cycle.md`, `60_exceptions.md` rules R157, R158), reset and the fault outputs. -/

namespace Sys2Proof.Machine

/-! ### Every step answers a next state -/

theorem exec_total (i : Instr) (s : State) : ∃ t, exec i s = .next t := by
  rw [exec_eq_handler]
  exact attempt_total s _ fun r => finish_total s r.1 r.2

theorem unlessFaulted_total {s : State} {op : State → Outcome} (h : ∃ t, op s = .next t) :
    ∃ t, unlessFaulted s op = .next t := by
  cases hf : s.fault with
  | none => rw [unlessFaulted_none hf]; exact h
  | some f => exact ⟨_, unlessFaulted_some hf op⟩

theorem tick_total (s : State) : ∃ t, tick s = .next t :=
  unlessFaulted_total (attempt_total s _ fun _ => attempt_total s _ fun i => exec_total i s)

theorem perform_total (c : Command) (s : State) : ∃ t, perform c s = .next t := by
  cases c with
  | tick b =>
    obtain ⟨t, ht⟩ := tick_total { s with rnd := some b }
    exact ⟨_, congrArg releaseRnd ht⟩
  | tickTimers | keypress => exact unlessFaulted_total ⟨_, rfl⟩
  | load bytes => exact unlessFaulted_total (attempt_total s _ fun _ => ⟨_, rfl⟩)
  | reset | none => exact ⟨_, rfl⟩

/-- Settles O14: a step is one command or one tick, and each of them answers a next state (rule R73). -/
theorem everyStepAnswersNext : Obligations.EveryStepAnswersNext := by
  intro s
  unfold step serve
  split
  · exact perform_total _ _
  · split
    · exact perform_total _ _
    · exact tick_total s
    · exact perform_total _ _

/-! ### Commit or precise fault -/

/-- Settles O12: the tick ends in a raise, by the handler or by the PC check, or in the commit of a state whose
latch the handler left alone (rules R70, R72). -/
theorem commitOrPreciseFault : Obligations.CommitOrPreciseFault := by
  intro i s t h
  rcases exec_raises_or_commits h with ⟨f, rfl⟩ | ⟨a, pc', ha, hpc', rfl⟩
  · exact .inr ⟨f, rfl⟩
  · obtain ⟨hfault, -⟩ := handler_keeps ha
    exact .inl ⟨hfault, (toNat_ofNat_of_le hpc').trans_le hpc', rfl⟩

/-- Settles O11: the handler of such an instruction leaves PC to the end of the tick, which takes it 2 further
or finds it outside memory; of its own it raises at most a bounds violation (rules R69, R70). -/
theorem nonBranchingAdvancesByTwo : Obligations.NonBranchingAdvancesByTwo := by
  intro i s hop
  refine ⟨fun hroom => ?traps, fun t hf h ht => ?advances⟩
  case traps =>
    rw [exec_eq_handler]
    cases hh : handler i s with
    | error f =>
      rcases handler_error_cases hh with rfl | ⟨-, -, nnn, rfl⟩ | ⟨-, -, rfl⟩
      · rfl
      · exact absurd (by decide : Op.call ∈ instrsWritingPc) hop
      · exact absurd (by decide : Op.ret ∈ instrsWritingPc) hop
    | ok r =>
      obtain ⟨hpc, -⟩ := handler_pc (a := r.1) (pc' := r.2) hh
      exact finish_bad (by rw [hpc hop]; exact hroom)
  case advances =>
    rcases exec_raises_or_commits h with ⟨f, rfl⟩ | ⟨a, pc', ha, hle, rfl⟩
    · cases ht
    · obtain ⟨hpc, -⟩ := handler_pc ha
      exact (toNat_ofNat_of_le hle).trans (hpc hop)

/-! ### The tick and the decoded instruction -/

/-- Settles O7: the fetch fails, and the tick raises its condition (rule R66). -/
theorem fetchPastMemoryTraps : Obligations.FetchPastMemoryTraps := by
  intro s hf hpc
  rw [tick, unlessFaulted_none hf, fetch_error hpc, attempt_error]

theorem decodeWord_of_decode {hi lo : Byte} {rest rest' : List Byte} {i : Instr}
    (h : decode (hi :: lo :: rest) = .ok (i, rest')) : decodeWord (wordOfBytes hi lo) = some i := by
  rw [decode] at h
  cases hd : decodeWord (wordOfBytes hi lo) with
  | none => rw [hd] at h; cases h
  | some j => rw [hd] at h; cases h; rfl

theorem nextInstr_of_decodeWord {s : State} {i : Instr} (hpc : s.pc.toNat ≤ 4094)
    (hd : decodeWord s.wordAtPc = some i) : s.nextInstr = some i :=
  (if_pos hpc).trans hd

/-- Settles O6: the instruction at PC is i, neither the port nor the schedule says which one it is, and a step
of such a machine is its tick (rules R66, R68). -/
theorem stepRunsDecodedInstruction : Obligations.StepRunsDecodedInstruction := by
  intro s i hf hpc _ hdec
  have hnext : s.nextInstr = some i := nextInstr_of_decodeWord hpc (decodeWord_of_decode hdec)
  have htick : tick s = exec i s := tick_of_nextInstr hf hnext
  refine ⟨htick, fun b => ?port, fun hp ht => (step_of_ticking hp ht).trans htick, fun b rest hp => ?waiting⟩
  case port => exact congrArg releaseRnd (tick_of_nextInstr (s := { s with rnd := some b }) hf hnext)
  case waiting =>
    rw [step_of_command hp]
    exact congrArg releaseRnd (tick_of_nextInstr (s := { s with pending := rest, rnd := some b }) hf hnext)

/-! ### What an instruction and a tick never write -/

/-- The configuration and the key flags stand, and the tone signal is 0 (`10_state.md` rules R22, R24). -/
structure TickFrame (s t : State) : Prop where
  cfg : t.cfg = s.cfg
  keys : t.keys = s.keys
  quiet : t.toneEvent = false

theorem exec_tickFrame {i : Instr} {s t : State} (h : exec i s = .next t) : TickFrame s t := by
  rcases exec_raises_or_commits h with ⟨f, rfl⟩ | ⟨a, pc', ha, -, rfl⟩
  · exact ⟨rfl, rfl, rfl⟩
  · obtain ⟨-, hkeys, hcfg, -⟩ := handler_keeps ha
    exact ⟨hcfg, hkeys, rfl⟩

theorem tick_tickFrame {s t : State} (h : tick s = .next t) : TickFrame s t := by
  rcases tick_cases h with ⟨-, rfl⟩ | ⟨-, -, rfl⟩ | ⟨-, -, -, rfl⟩ | ⟨-, i, -, hx⟩
  · exact ⟨rfl, rfl, rfl⟩
  · exact ⟨rfl, rfl, rfl⟩
  · exact ⟨rfl, rfl, rfl⟩
  · exact exec_tickFrame hx

theorem perform_keeps_cfg {c : Command} {s t : State} (h : perform c s = .next t) : t.cfg = s.cfg := by
  cases performs_of_perform h with
  | tick b u hu => exact ((tick_tickFrame hu).cfg :)
  | loaded bytes => exact State.pokeBytes_cfg ..
  | ignored | tickTimers | keypress | loadTraps | reset | none => rfl

/-- Settles O19: neither a tick nor a command writes the configuration, RESET included (log entry 14). -/
theorem configurationIsFixed : Obligations.ConfigurationIsFixed := by
  intro s t h
  rcases step_cases h with ⟨-, -, ht⟩ | ⟨c, commands, served, hc⟩
  · exact (tick_tickFrame ht).cfg
  · exact (perform_keeps_cfg hc).trans (State.withSchedule_cfg ..)

/-! ### A faulted machine -/

/-- Settles O13: every command but RESET waits for the latch to be clear, and RESET clears it (rule R158). -/
theorem faultedMachineWaitsForReset : Obligations.FaultedMachineWaitsForReset := by
  intro s hs
  obtain ⟨f, hf⟩ := Option.ne_none_iff_exists'.1 hs
  refine ⟨unlessFaulted_some hf _, fun b => ?port, fun c hreset htick => ?others, ⟨_, rfl, rfl, rfl⟩⟩
  case port =>
    exact congrArg releaseRnd (unlessFaulted_some (s := { s with rnd := some b }) hf _)
  case others =>
    cases c with
    | tick b => exact absurd rfl (htick b)
    | reset => exact absurd rfl hreset
    | tickTimers | keypress | load => exact unlessFaulted_some hf _
    | none => rfl

/-- Settles O56: the outputs are functions of the latch, which a faulted machine keeps until RESET (rules R150,
R158). -/
theorem faultOutputsShowTheLatch : Obligations.FaultOutputsShowTheLatch := by
  have shown {s : State} {f : Fault} (h : s.fault = some f) :
      faultValid s = true ∧ faultCode s = f.code ∧ faultWord s = f.word := by
    simp [faultValid, faultCode, faultWord, h]
  refine ⟨fun s h => ?_, fun s => shown, fun s => shown, fun s => shown, fun s w => shown, fun s c hv hc => ?_,
    fun s => ⟨_, rfl, rfl⟩⟩
  · simp [faultValid, faultCode, faultWord, h]
  · have hf : s.fault ≠ none := Option.isSome_iff_ne_none.1 hv
    obtain ⟨-, hport, hothers, -⟩ := faultedMachineWaitsForReset s hf
    by_cases htick : ∃ b, c = .tick b
    · obtain ⟨b, rfl⟩ := htick
      exact ⟨_, hport b, hv, rfl, rfl⟩
    · exact ⟨_, hothers c hc (fun b hb => htick ⟨b, hb⟩), hv, rfl, rfl⟩

/-! ### Reset -/

/-- The baseline, and the state after RESET, up to what is not the Machine's (log entry 14). -/
theorem eq_baseline_of_reset {s t : State} (h : t = State.baseline s.cfg ∨ perform .reset s = .next t) :
    t = { State.baseline s.cfg with
      pending := t.pending, tail := t.tail, served := t.served, draws := t.draws } := by
  rcases h with rfl | h
  · rfl
  · cases h; rfl

/-- Settles O17: memory lists nothing, so the glyph table is the configured font, and every other value is the
baseline's (`10_state.md` rule R23). -/
theorem resetGivenValues : Obligations.ResetGivenValues := by
  intro s t h
  rw [eq_baseline_of_reset h]
  exact ⟨rfl, fun a ha => dif_pos ha, blankDisplay_cell, rfl, rfl, rfl⟩

/-- Settles O18: the registers, stack and keys are filled with one value, and memory lists nothing (D11). -/
theorem resetChosenValues : Obligations.ResetChosenValues := by
  intro s t h
  rw [eq_baseline_of_reset h]
  exact ⟨fun r => Vector.getElem_replicate .., rfl, fun k => Vector.getElem_replicate .., rfl, rfl,
    fun k => Vector.getElem_replicate .., fun a ha => dif_neg (by omega)⟩

end Sys2Proof.Machine
end

section
/-! PROOFS. The frames of all 34 instructions (`10_state.md` rules R11, R24): registers, the other columns of the
access matrix, the bytes outside a store, and that nothing reads ST. -/

namespace Sys2Proof.Machine

/-- If `MemRead` answers, it read its bytes in range. -/
theorem State.memRead_eq_ok {s : State} {a n : Nat} {bytes : List Byte} (h : s.memRead a n = .ok bytes) :
    bytes = s.peekBytes a n ∧ (n = 0 ∨ a + n ≤ 4096) := by
  unfold State.memRead at h
  split at h
  · next hr => cases h; exact ⟨rfl, (inRange_iff a n).1 hr⟩
  · cases h

/-! ### Registers -/

/-- A handler writes only the registers its instruction names, and VF as a flag. -/
theorem handler_readV {i : Instr} {s a : State} {pc' : Nat} (h : handler i s = .ok (a, pc')) {r : Reg}
    (hdest : instrHasDestination i r = false) (hflag : r ≠ VF ∨ instrWritesFlag i = false) :
    a.readV r = s.readV r := by
  cases i <;> simp only [handler] at h
  case ret =>
    obtain ⟨p, hp, he⟩ := map_eq_ok h
    obtain ⟨_, _, _, rfl⟩ := State.pop_eq_ok hp
    cases he; rfl
  case call =>
    obtain ⟨p, hp, he⟩ := map_eq_ok h
    obtain ⟨_, rfl⟩ := State.push_eq_ok hp
    cases he; rfl
  case ldBcd | storeRegs =>
    obtain ⟨t, ht, he⟩ := map_eq_ok h
    obtain ⟨rfl, _⟩ := State.memWrite_eq_ok ht
    cases he
    simp only [State.readV, State.pokeBytes_v]
  case skp | sknp | ldFont =>
    obtain ⟨x, _, he⟩ := map_eq_ok h
    cases he; rfl
  case loadRegs x =>
    obtain ⟨bytes, hb, he⟩ := map_eq_ok h
    cases he
    obtain ⟨rfl, -⟩ := State.memRead_eq_ok hb
    have hlen := State.peekBytes_length s s.i.toNat (x.toNat + 1)
    have hx : ¬ r.toNat ≤ x.toNat := of_decide_eq_false hdest
    rw [State.readV_writeRegsFrom _ _ _ (by have := x.isLt; omega), dif_neg (by omega)]
  case drw =>
    obtain ⟨rows, _, he⟩ := map_eq_ok h
    cases he
    have hvf : r ≠ VF := hflag.resolve_right (by simp [instrWritesFlag])
    exact (State.readV_writeV ..).trans (if_neg hvf)
  case addReg | subReg | subnReg | shr | shl =>
    cases h
    have hvf : r ≠ VF := hflag.resolve_right (by simp [instrWritesFlag])
    rw [State.readV_writeFlagged, if_neg hvf, if_neg (beq_eq_false_iff_ne.1 hdest)]
  case ldVxKey =>
    split at h <;> cases h
    · exact (State.readV_writeV ..).trans (if_neg (beq_eq_false_iff_ne.1 hdest))
    · rfl
  case ldImm | addImm | ldReg | orReg | andReg | xorReg | rnd | ldVxDt =>
    cases h
    exact (State.readV_writeV ..).trans (if_neg (beq_eq_false_iff_ne.1 hdest))
  all_goals cases h; rfl

/-- A handler that writes the flag leaves 0 or 1 in VF. -/
theorem handler_flag {i : Instr} {s a : State} {pc' : Nat} (h : handler i s = .ok (a, pc'))
    (hflag : instrWritesFlag i = true) : a.readV VF = 0#8 ∨ a.readV VF = 1#8 := by
  cases i <;> simp only [handler] at h
  case addReg | subReg | subnReg | shr | shl =>
    cases h
    rw [State.readV_writeFlagged, if_pos rfl]
    exact flagByte_cases _
  case drw =>
    obtain ⟨rows, _, he⟩ := map_eq_ok h
    cases he
    rw [State.readV_writeV_self]
    exact flagByte_cases _
  all_goals cases hflag

/-- Settles O20: a raise writes no register, and the end of the tick none but what the handler wrote. -/
theorem registerFrame : Obligations.RegisterFrame := by
  intro i s t h
  rcases exec_raises_or_commits h with ⟨f, rfl⟩ | ⟨a, pc', ha, -, rfl⟩
  · exact ⟨fun _ _ _ => rfl, fun _ _ ht => by cases ht⟩
  · refine ⟨fun r hdest hflag => ?_, fun hwrites _ _ => ?_⟩
    · exact (handler_readV ha hdest hflag :)
    · exact (handler_flag ha hwrites :)

/-! ### The other columns of the access matrix -/

/-- Settles O21: a raise latches the state before, else the tick commits the handler's frame with the PC that
rule R69 of `40_cycle.md` allows. -/
theorem accessMatrixFrame : Obligations.AccessMatrixFrame := by
  intro i s t h
  rcases exec_raises_or_commits h with ⟨f, rfl⟩ | ⟨a, pc', ha, hle, rfl⟩
  · exact ⟨fun _ => rfl, fun _ => rfl, fun _ => rfl, fun _ => ⟨rfl, fun _ => rfl⟩, fun _ => rfl, rfl, fun _ => rfl,
      fun _ => rfl, .inl ⟨f, rfl⟩, rfl, fun _ => rfl, rfl, rfl, rfl, rfl, rfl⟩
  · obtain ⟨hfault, hkeys, hcfg, hpending, hrnd, htail, hserved⟩ := handler_keeps ha
    obtain ⟨hadvance, hskip, hwait⟩ := handler_pc ha
    have hframe := handler_frame ha
    have hpc : (BitVec.ofNat 16 pc').toNat = pc' := toNat_ofNat_of_le hle
    refine ⟨hframe.i, hframe.stack, hframe.sp, fun ho => ⟨hframe.mem ho, fun c => ?byte⟩, hframe.display, hkeys,
      hframe.dt, hframe.st, .inr ⟨hfault, fun ho => hpc.trans (hadvance ho), fun ho => ?skip, fun ho => ?wait⟩,
      rfl, hframe.draws, hrnd, hcfg, hpending, htail, hserved⟩
    case byte =>
      show Memory.read a.cfg.font a.mem c = s.peek c
      rw [hcfg, hframe.mem ho, State.peek]
    case skip => exact (hskip ho).imp hpc.trans hpc.trans
    case wait =>
      refine (hwait ho).imp (fun e => ?_) hpc.trans
      exact BitVec.eq_of_toNat_eq (hpc.trans e)

/-! ### The bytes outside a store -/

/-- A successful `MemWrite` leaves the bytes outside its range as they were (`20_memory.md` rule R33). -/
theorem State.peek_of_memWrite {s t : State} {a c : Nat} {bytes : List Byte}
    (hwf : Memory.wf s.cfg.font s.mem = true) (h : s.memWrite a bytes = .ok t)
    (hc : c < a ∨ a + bytes.length ≤ c) : t.peek c = s.peek c := by
  obtain ⟨rfl, hempty | hfits⟩ := State.memWrite_eq_ok h
  · rw [List.length_eq_zero_iff.1 hempty, State.pokeBytes]
  · rw [State.peek_pokeBytes hwf _ _ hfits, dif_neg (by omega)]

/-- The frame of an instruction that stores bytes and does nothing else before the end of the tick. -/
theorem peek_of_exec_store {i : Instr} {s t : State} {a c : Nat} {bytes : List Byte}
    (hi : exec i s = attempt s (s.memWrite a bytes) (advance s)) (hwf : Memory.wf s.cfg.font s.mem = true)
    (h : exec i s = .next t) (hc : c < a ∨ a + bytes.length ≤ c) : t.peek c = s.peek c := by
  rcases attempt_cases (hi.symm.trans h) with ⟨u, hu, hadv⟩ | ⟨f, -, rfl⟩
  · rcases finish_cases hadv with ⟨-, rfl⟩ | ⟨-, rfl⟩
    · exact (State.peek_of_memWrite hwf hu hc :)
    · rfl
  · rfl

theorem exec_storeRegs (x : Reg) (s : State) :
    exec (.storeRegs x) s = attempt s (s.memWrite s.i.toNat (s.firstRegs (x.toNat + 1))) (advance s) := rfl

theorem exec_ldBcd (x : Reg) (s : State) :
    exec (.ldBcd x) s = attempt s (s.memWrite s.i.toNat (bcdDigits s.cfg.bcd (s.readV x))) (advance s) := rfl

/-- `LD [I],Vx` stores X + 1 bytes. -/
theorem firstRegs_succ_length (x : Reg) (s : State) : (s.firstRegs (x.toNat + 1)).length = x.toNat + 1 :=
  State.firstRegs_length s x.isLt

/-- Settles O22: both are a checked store from I up and then the end of the tick. -/
theorem storeFrame : Obligations.StoreFrame := by
  refine ⟨fun x s t a hwf h ha => ?_, fun x s t a hwf h ha => peek_of_exec_store (exec_ldBcd x s) hwf h ha⟩
  exact peek_of_exec_store (exec_storeRegs x s) hwf h (by rw [firstRegs_succ_length]; omega)

/-! ### ST is not read -/

/-- What the reads of memory answer depends on memory and the configuration alone. -/
theorem State.peekBytes_congr {s t : State} (hmem : s.mem = t.mem) (hcfg : s.cfg = t.cfg) (n a : Nat) :
    s.peekBytes a n = t.peekBytes a n := by
  induction n generalizing a with
  | zero => rfl
  | succ n ih => simp only [State.peekBytes, ih, State.peek, hmem, hcfg]

theorem State.memRead_congr {s t : State} (hmem : s.mem = t.mem) (hcfg : s.cfg = t.cfg) (a n : Nat) :
    s.memRead a n = t.memRead a n := by
  rw [State.memRead, State.peekBytes_congr hmem hcfg, State.memRead]

/-- The same machine with another value in ST. -/
def State.withSt (s : State) (b : Byte) : State := { s with st := b }

theorem State.pokeBytes_withSt (b : Byte) (bytes : List Byte) (a : Nat) (s : State) :
    State.pokeBytes a bytes (s.withSt b) = (State.pokeBytes a bytes s).withSt b := by
  induction bytes generalizing a s with
  | nil => rfl
  | cons c cs ih => exact ih (a + 1) (s.poke a c)

theorem State.memWrite_withSt (b : Byte) (bytes : List Byte) (a : Nat) (s : State) :
    (s.withSt b).memWrite a bytes = (s.memWrite a bytes).map (State.withSt · b) := by
  unfold State.memWrite
  split
  · rw [State.pokeBytes_withSt]; rfl
  · rfl

theorem State.writeRegsFrom_withSt (b : Byte) (bytes : List Byte) (k : Nat) (s : State) :
    State.writeRegsFrom k bytes (s.withSt b) = (State.writeRegsFrom k bytes s).withSt b := by
  induction bytes generalizing k s with
  | nil => rfl
  | cons c cs ih => exact ih (k + 1) (s.writeV (BitVec.ofNat 4 k) c)

theorem State.push_withSt (b : Byte) (w : Word) (s : State) :
    (s.withSt b).push w = (s.push w).map (State.withSt · b) := by
  by_cases h : s.sp.val < 16
  · rw [State.push_ok w h, State.push_ok (s := s.withSt b) w h]; rfl
  · rw [State.push_error w h, State.push_error (s := s.withSt b) w h]; rfl

theorem State.pop_withSt (b : Byte) (s : State) :
    (s.withSt b).pop = s.pop.map fun r => (r.1, r.2.withSt b) := by
  obtain ⟨v, i, pc, stack, ⟨n, hn⟩, _⟩ := s
  cases n <;> rfl

theorem handler_withSt (i : Instr) (s : State) (b : Byte) :
    ∃ c, handler i (s.withSt b) = (handler i s).map fun r => (r.1.withSt c, r.2) := by
  cases i
  case ldStVx x => exact ⟨s.readV x, rfl⟩
  all_goals refine ⟨b, ?_⟩
  case call =>
    simp only [handler, State.push_withSt]
    show Except.map _ (Except.map _ (s.push (BitVec.ofNat 16 s.npc))) = _
    cases s.push (BitVec.ofNat 16 s.npc) <;> rfl
  case ret => simp only [handler, State.pop_withSt]; cases s.pop <;> rfl
  case drw _ _ n =>
    simp only [handler, State.memRead_congr (s := s.withSt b) (t := s) rfl rfl]
    show Except.map _ (s.memRead s.i.toNat n.toNat) = _
    cases s.memRead s.i.toNat n.toNat <;> rfl
  case loadRegs x =>
    simp only [handler, State.memRead_congr (s := s.withSt b) (t := s) rfl rfl, State.writeRegsFrom_withSt]
    show Except.map _ (s.memRead s.i.toNat (x.toNat + 1)) = _
    cases s.memRead s.i.toNat (x.toNat + 1) <;> rfl
  case ldBcd x =>
    simp only [handler, State.memWrite_withSt]
    show Except.map _ (Except.map _ (s.memWrite s.i.toNat (bcdDigits s.cfg.bcd (s.readV x)))) = _
    cases s.memWrite s.i.toNat (bcdDigits s.cfg.bcd (s.readV x)) <;> rfl
  case storeRegs x =>
    simp only [handler, State.memWrite_withSt]
    show Except.map _ (Except.map _ (s.memWrite s.i.toNat (s.firstRegs (x.toNat + 1)))) = _
    cases s.memWrite s.i.toNat (s.firstRegs (x.toNat + 1)) <;> rfl
  case skp x | sknp x =>
    show Except.map _ (keyIndex (s.readV x)) = _
    simp only [handler]
    cases keyIndex (s.readV x) <;> rfl
  case ldFont x =>
    show Except.map _ (glyphAddress (s.readV x)) = _
    simp only [handler]
    cases glyphAddress (s.readV x) <;> rfl
  case ldVxKey =>
    show handler _ { s with st := b } = _
    simp only [handler]
    cases highestKey s.keys <;> rfl
  all_goals rfl

/-- Settles O23: the handler answers the same but for ST, and the end of the tick reads PC alone (rule R18). -/
theorem soundTimerUnreadable : Obligations.SoundTimerUnreadable := by
  intro i s t b h
  obtain ⟨c, hc⟩ := handler_withSt i s b
  change ∃ u, exec i (s.withSt b) = .next u ∧ u.withSt t.st = t
  rw [exec_eq_handler] at h ⊢
  rw [hc, attempt_map]
  cases hh : handler i s with
  | error f => rw [hh] at h; cases h; exact ⟨_, rfl, rfl⟩
  | ok r =>
    rw [hh, attempt_ok] at h
    rw [attempt_ok]
    rcases finish_cases h with ⟨hle, rfl⟩ | ⟨hgt, rfl⟩
    · exact ⟨_, finish_ok hle, rfl⟩
    · exact ⟨_, finish_bad hgt, rfl⟩

end Sys2Proof.Machine
end

section
/-! PROOFS. Calls, returns, skips and the indexed jump (`41_control_flow.md`), and the key skips, which are
skips too (`45_keypad_timers.md` rules R135, R136). -/

namespace Sys2Proof.Machine

/-! ### Call and return -/

/-- What `CALL NNN` commits when the stack has room (`41_control_flow.md` rule R77). -/
def State.called (s : State) (nnn : Addr) (hsp : s.sp.val < 16) : State :=
  { s with
    stack := s.stack.set s.sp.val (BitVec.ofNat 16 s.npc) hsp, sp := ⟨s.sp.val + 1, Nat.succ_lt_succ hsp⟩,
    pc := BitVec.ofNat 16 (addrWord nnn).toNat, toneEvent := false }

theorem exec_call_of_room {s : State} (nnn : Addr) (hsp : s.sp.val < 16) :
    exec (.call nnn) s = .next (s.called nnn hsp) := by
  rw [exec, execCall, State.push_ok _ hsp, attempt_ok, finish_ok (addrWord_le nnn)]
  rfl

theorem State.called_pc (s : State) (nnn : Addr) (hsp : s.sp.val < 16) :
    (s.called nnn hsp).pc.toNat = nnn.toNat :=
  (toNat_ofNat_of_le (addrWord_le nnn)).trans (addrWord_toNat nnn)

/-- The address `CALL` pushes is held exactly (log entry 11). -/
theorem State.called_stack_sp {s : State} (nnn : Addr) (hsp : s.sp.val < 16) (hpc : s.pc.toNat ≤ 4095) :
    (s.called nnn hsp).stack[s.sp.val].toNat = s.pc.toNat + 2 := by
  have htop : (s.called nnn hsp).stack[s.sp.val] = BitVec.ofNat 16 s.npc := Vector.getElem_set_self hsp
  rw [htop, BitVec.toNat_ofNat, State.npc]
  exact Nat.mod_eq_of_lt (by omega)

theorem State.called_stack_of_ne (s : State) (nnn : Addr) (hsp : s.sp.val < 16) (k : Nat) (hk : k < 16)
    (hne : k ≠ s.sp.val) : (s.called nnn hsp).stack[k] = s.stack[k] :=
  Vector.getElem_set_ne hsp hk hne.symm

theorem exec_ret_of_held {s : State} {k : Nat} (hk : k < 16) (hsp : s.sp.val = k + 1)
    (haddr : s.stack[k].toNat ≤ 4095) :
    exec .ret s = .next { s with sp := ⟨k, by omega⟩, pc := s.stack[k], toneEvent := false } := by
  rw [exec, execRet, State.pop_ok hk hsp, attempt_ok, finish_ok haddr, BitVec.ofNat_toNat, BitVec.setWidth_eq]

/-- Settles O24: `pop` answers the top entry, whose value as the new PC the end of the tick checks (rules R70,
R75), or there is none. -/
theorem returnPops : Obligations.ReturnPops := by
  refine ⟨fun s k hk hsp haddr => ⟨_, exec_ret_of_held hk hsp haddr, rfl, rfl, rfl⟩, fun s k hk hsp haddr => ?_,
    fun s => exec_ret_of_empty⟩
  rw [exec, execRet, State.pop_ok hk hsp, attempt_ok, finish_bad haddr]

/-- Settles O26: `push` writes S[SP] alone, and the target always passes the PC check (rules R70, R77). -/
theorem callPushes : Obligations.CallPushes :=
  ⟨fun nnn s hsp hpc => ⟨_, exec_call_of_room nnn hsp, s.called_pc nnn hsp, rfl, State.called_stack_sp nnn hsp hpc,
    s.called_stack_of_ne nnn hsp, rfl⟩, fun nnn _ => exec_call_of_full nnn⟩

/-- The machine that fetches 00EE returns next. -/
theorem nextInstr_of_ret_word {s : State} {a : Nat} (hpc : s.pc.toNat = a) (ha : a ≤ 4094)
    (hhi : s.peek a = 0x00#8) (hlo : s.peek (a + 1) = 0xEE#8) : s.nextInstr = some .ret := by
  subst hpc
  refine nextInstr_of_decodeWord ha ?_
  rw [State.wordAtPc, hhi, hlo]
  rfl

/-- Settles O27: the call writes no memory, so the machine fetches 00EE at its target, and what that pops is
what the call pushed (`95_test_vectors.md` S3). -/
theorem callThenReturn : Obligations.CallThenReturn := by
  intro s nnn hf hcall hsp hpc hnnn hhi hlo
  have hcalled : tick s = .next (s.called nnn hsp) :=
    (tick_of_nextInstr hf hcall).trans (exec_call_of_room nnn hsp)
  have hpushed := State.called_stack_sp nnn hsp (by omega)
  have hret : (s.called nnn hsp).nextInstr = some .ret :=
    nextInstr_of_ret_word (s.called_pc nnn hsp) hnnn hhi hlo
  have hreturned := (tick_of_nextInstr (s := s.called nnn hsp) hf hret).trans
    (exec_ret_of_held hsp rfl (by rw [hpushed]; exact hpc))
  exact ⟨_, _, hcalled, s.called_pc nnn hsp, hreturned, hpushed, s.called_stack_of_ne nnn hsp, rfl,
    fun hp ht => ⟨(step_of_ticking hp ht).trans hcalled,
      (step_of_ticking (s := s.called nnn hsp) hp ht).trans hreturned⟩⟩

/-! ### Skips -/

/-- Instruction i in state s is a skip on the condition c: 4 further exactly when c holds, nothing but PC and
the tone signal written, and a bounds violation where the PC would leave memory (`41_control_flow.md` rules R78
to R81, `40_cycle.md` rule R70). -/
structure SkipsWhen (i : Instr) (s : State) (c : Prop) : Prop where
  skips : c → s.pc.toNat + 4 ≤ 4095 → ∃ t, exec i s = .next t ∧ t.pc.toNat = s.pc.toNat + 4 ∧ s.sameButPc t
  advances : ¬c → s.pc.toNat + 2 ≤ 4095 → ∃ t, exec i s = .next t ∧ t.pc.toNat = s.pc.toNat + 2 ∧ s.sameButPc t
  skipTraps : 4095 < s.pc.toNat + 4 → c → exec i s = .next (s.latch .boundsViolation)
  traps : 4095 < s.pc.toNat + 2 → exec i s = .next (s.latch .boundsViolation)

theorem skipsWhen_of_skipIf {i : Instr} {s : State} {b : Bool} {c : Prop} (hi : exec i s = skipIf b s)
    (hc : b = true ↔ c) : SkipsWhen i s c := by
  have htaken (h : c) : exec i s = finish s s (s.pc.toNat + 4) := hi.trans (by rw [skipIf, if_pos (hc.2 h)]; rfl)
  have hnot (h : ¬c) : exec i s = finish s s (s.pc.toNat + 2) := hi.trans (by rw [skipIf, if_neg (mt hc.1 h)]; rfl)
  refine ⟨fun h hroom => ?_, fun h hroom => ?_, fun hroom h => (htaken h).trans (finish_bad hroom), fun hroom => ?_⟩
  · rw [htaken h]; exact finish_self_sameButPc hroom
  · rw [hnot h]; exact finish_self_sameButPc hroom
  · by_cases h : c
    · exact (htaken h).trans (finish_bad (by omega))
    · exact (hnot h).trans (finish_bad hroom)

theorem exec_seImm_skipsWhen (x : Reg) (nn : Byte) (s : State) : SkipsWhen (.seImm x nn) s (s.readV x = nn) :=
  skipsWhen_of_skipIf rfl beq_iff_eq

theorem exec_sneImm_skipsWhen (x : Reg) (nn : Byte) (s : State) : SkipsWhen (.sneImm x nn) s (s.readV x ≠ nn) :=
  skipsWhen_of_skipIf rfl bne_iff_ne

theorem exec_seReg_skipsWhen (x y : Reg) (s : State) : SkipsWhen (.seReg x y) s (s.readV x = s.readV y) :=
  skipsWhen_of_skipIf rfl beq_iff_eq

theorem exec_sneReg_skipsWhen (x y : Reg) (s : State) : SkipsWhen (.sneReg x y) s (s.readV x ≠ s.readV y) :=
  skipsWhen_of_skipIf rfl bne_iff_ne

/-- A pair of skips on opposite conditions, as the statements put it. -/
theorem SkipsWhen.both {i j : Instr} {s : State} {c : Prop} (hi : SkipsWhen i s c) (hj : SkipsWhen j s (¬c)) :
    (c → s.pc.toNat + 4 ≤ 4095 → ∃ t, exec i s = .next t ∧ t.pc.toNat = s.pc.toNat + 4 ∧ s.sameButPc t) ∧
    (¬c → s.pc.toNat + 2 ≤ 4095 → ∃ t, exec i s = .next t ∧ t.pc.toNat = s.pc.toNat + 2 ∧ s.sameButPc t) ∧
    (¬c → s.pc.toNat + 4 ≤ 4095 → ∃ t, exec j s = .next t ∧ t.pc.toNat = s.pc.toNat + 4 ∧ s.sameButPc t) ∧
    (c → s.pc.toNat + 2 ≤ 4095 → ∃ t, exec j s = .next t ∧ t.pc.toNat = s.pc.toNat + 2 ∧ s.sameButPc t) ∧
    (4095 < s.pc.toNat + 4 →
      (c → exec i s = .next (s.latch .boundsViolation)) ∧ (¬c → exec j s = .next (s.latch .boundsViolation))) ∧
    (4095 < s.pc.toNat + 2 →
      exec i s = .next (s.latch .boundsViolation) ∧ exec j s = .next (s.latch .boundsViolation)) :=
  ⟨hi.skips, hi.advances, hj.skips, fun h => hj.advances (not_not.2 h),
    fun hroom => ⟨hi.skipTraps hroom, hj.skipTraps hroom⟩, fun hroom => ⟨hi.traps hroom, hj.traps hroom⟩⟩

/-- Settles O28: the two are skips on opposite conditions (rules R78, R79). -/
theorem skipOnImmediate : Obligations.SkipOnImmediate := fun x nn s =>
  (exec_seImm_skipsWhen x nn s).both (exec_sneImm_skipsWhen x nn s)

/-- Settles O29: the two are skips on opposite conditions (rules R80, R81). -/
theorem skipOnRegisters : Obligations.SkipOnRegisters := fun x y s =>
  (exec_seReg_skipsWhen x y s).both (exec_sneReg_skipsWhen x y s)

theorem keyIndex_of_toNat_eq {b : Byte} {k : Fin 16} (h : b.toNat = k.val) : keyIndex b = .ok k := by
  have hlt : b.toNat < 16 := h ▸ k.isLt
  rw [keyIndex_ok hlt]
  exact congrArg Except.ok (Fin.ext h)

theorem exec_skp_skipsWhen {x : Reg} {s : State} {k : Fin 16} (h : (s.readV x).toNat = k.val) :
    SkipsWhen (.skp x) s (s.keys[k] = true) :=
  skipsWhen_of_skipIf (by rw [exec, execSkp, keyIndex_of_toNat_eq h, attempt_ok]) Iff.rfl

theorem exec_sknp_skipsWhen {x : Reg} {s : State} {k : Fin 16} (h : (s.readV x).toNat = k.val) :
    SkipsWhen (.sknp x) s (¬s.keys[k] = true) :=
  skipsWhen_of_skipIf (by rw [exec, execSknp, keyIndex_of_toNat_eq h, attempt_ok]) (by simp)

/-- Settles O47: the key number is in range, and the two are skips on opposite conditions (rules R135, R136). -/
theorem skipOnKey : Obligations.SkipOnKey := by
  intro x s k hk
  simp only [← Bool.not_eq_true]
  exact (exec_skp_skipsWhen hk).both (exec_sknp_skipsWhen hk)

/-! ### Indexed jump -/

theorem exec_jpV0 (nnn : Addr) (s : State) :
    exec (.jpV0 nnn) s = finish s s ((s.readV 0#4).toNat + nnn.toNat) := by
  rw [exec, execJpV0, byteWord_toNat, addrWord_toNat]
  rfl

/-- Settles O30: the sum is a natural number until the PC check (rules R70, R82). -/
theorem indexedJump : Obligations.IndexedJump := by
  intro nnn s
  rw [exec_jpV0]
  exact ⟨finish_self_sameButPc, finish_bad⟩

end Sys2Proof.Machine
end

section
/-! PROOFS. Arithmetic with flag, shifts and the random byte (`42_alu.md`). -/

namespace Sys2Proof.Machine

/-- An instruction that writes VX and then the flag: VX holds the result unless it is VF, VF the flag, every
other register stands (rule R102). -/
theorem exec_next_of_writeFlagged {i : Instr} {s : State} {x : Reg} {b : Byte} {c : Bool} {n m : Nat}
    (hi : exec i s = advance s (s.writeFlagged x b c)) (hroom : s.pc.toNat + 2 ≤ 4095) (hb : b.toNat = n)
    (hc : (flagByte c).toNat = m) :
    ∃ t, exec i s = .next t ∧ t.fault = s.fault ∧ t.pc.toNat = s.pc.toNat + 2 ∧
      (x ≠ VF → (t.readV x).toNat = n) ∧ (t.readV VF).toNat = m ∧
      ∀ r, r ≠ x → r ≠ VF → t.readV r = s.readV r := by
  have hread (r : Reg) := State.readV_writeFlagged s x r b c
  refine ⟨_, hi.trans (advance_ok hroom), rfl, toNat_ofNat_of_le hroom, fun hx => ?result, ?flag,
    fun r hx hvf => ?other⟩
  case result => exact (congrArg _ (hread x)).trans (by rw [if_neg hx, if_pos rfl, hb])
  case flag => exact (congrArg _ (hread VF)).trans (by rw [if_pos rfl, hc])
  case other => exact (hread r).trans (by rw [if_neg hvf, if_neg hx])

/-- The borrow flag as the statements put it: 0 exactly when the first operand is the smaller. -/
theorem flagByte_noBorrow_toNat (a b : Byte) :
    (flagByte (noBorrow a b)).toNat = if a.toNat < b.toNat then 0 else 1 := by
  rw [flagByte_toNat, noBorrow]
  by_cases h : a.toNat < b.toNat
  · rw [if_pos h, if_neg (by simpa using h)]
  · rw [if_neg h, if_pos (by simpa using h)]

/-- The difference of two bytes modulo 256, without a negative number. -/
theorem toNat_sub_byte (a b : Byte) : (a - b).toNat = (a.toNat + 256 - b.toNat) % 256 := by
  have := b.isLt
  rw [BitVec.toNat_sub]
  omega

/-- Settles O33: the byte addition is the sum modulo 256, and the flag is its carry (rule R96). -/
theorem addSetsCarry : Obligations.AddSetsCarry := by
  intro x y s hroom
  exact exec_next_of_writeFlagged rfl hroom (BitVec.toNat_add ..) (by simp [flagByte_toNat, carryOut])

/-- Settles O34: both are the difference modulo 256 with the flag of no borrow (rules R97, R99). -/
theorem subtractSetsNoBorrow : Obligations.SubtractSetsNoBorrow := fun _ _ _ hroom =>
  ⟨exec_next_of_writeFlagged rfl hroom (toNat_sub_byte ..) (flagByte_noBorrow_toNat ..),
    exec_next_of_writeFlagged rfl hroom (toNat_sub_byte ..) (flagByte_noBorrow_toNat ..)⟩

/-- The bit a right shift drops is the remainder of the division by 2. -/
theorem flagByte_droppedLow_toNat (a : Byte) : (flagByte (droppedLow a)).toNat = a.toNat % 2 := by
  rw [flagByte_toNat, droppedLow_eq]
  split
  · next h => exact (of_decide_eq_true h).symm
  · next h => have := of_decide_eq_false (Bool.not_eq_true _ ▸ h); omega

/-- The bit a left shift drops is the quotient by 128. -/
theorem flagByte_droppedHigh_toNat (a : Byte) : (flagByte (droppedHigh a)).toNat = a.toNat / 128 := by
  have := a.isLt
  rw [flagByte_toNat, droppedHigh_eq]
  split
  · next h => have := of_decide_eq_true h; omega
  · next h => have := of_decide_eq_false (Bool.not_eq_true _ ▸ h); omega

/-- Settles O35: the shifts halve and double, and the bit dropped is the old bit 0 or 7 (rules R98, R100). -/
theorem shiftsDropIntoVF : Obligations.ShiftsDropIntoVF := by
  intro x s hroom
  constructor
  · exact exec_next_of_writeFlagged rfl hroom (BitVec.toNat_ushiftRight ..) (flagByte_droppedLow_toNat _)
  · refine exec_next_of_writeFlagged rfl hroom ?_ (flagByte_droppedHigh_toNat _)
    rw [BitVec.toNat_shiftLeft, Nat.shiftLeft_eq, pow_one, mul_comm]

theorem exec_rnd (x : Reg) (nn : Byte) (s : State) :
    exec (.rnd x nn) s = advance s { s.writeV x (s.rndByte &&& nn) with draws := s.draws + 1 } := rfl

/-- Settles O36: the byte is the host's or the free one, and a bit of the AND is a bit of NN (rule R101). -/
theorem randomIsMasked : Obligations.RandomIsMasked := by
  intro x nn s hroom
  have hx := State.readV_writeV_self s x (s.rndByte &&& nn)
  refine ⟨_, (exec_rnd x nn s).trans (advance_ok hroom), rfl, toNat_ofNat_of_le hroom, fun b hb => ?presented,
    fun hnone => ?free, fun k hk => ?masked, fun r hr => ?other, rfl⟩
  case presented => exact hx.trans (by rw [State.rndByte, hb])
  case free => exact hx.trans (by rw [State.rndByte, hnone])
  case masked =>
    exact (congrArg (BitVec.getLsbD · k) hx).trans (by rw [BitVec.getLsbD_and, hk, Bool.and_false])
  case other => exact (State.readV_writeV s x r _).trans (if_neg hr)

end Sys2Proof.Machine
end

section
/-! PROOFS. Setting the index register (`43_index_memory.md`), and the timers and the wait for a key
(`45_keypad_timers.md`). -/

namespace Sys2Proof.Machine

/-! ### The index register -/

/-- Settles O37: one write of I each; a value above 15 is no digit (rules R110, R112). -/
theorem indexLoads : Obligations.IndexLoads := by
  refine ⟨fun nnn s hroom => ?address, fun x s hroom hx => ?digit, fun x s hx => ?noDigit⟩
  case address =>
    exact ⟨_, advance_ok (after := { s with i := addrWord nnn }) hroom, toNat_ofNat_of_le hroom, addrWord_toNat nnn,
      rfl⟩
  case digit =>
    have hexec : exec (.ldFont x) s = advance s { s with i := BitVec.ofNat 16 (5 * (s.readV x).toNat) } := by
      rw [exec, execLdFont, glyphAddress_ok hx, attempt_ok]
    exact ⟨_, hexec.trans (advance_ok hroom), toNat_ofNat_of_le hroom, toNat_ofNat_of_le (by omega), rfl⟩
  case noDigit => rw [exec, execLdFont, glyphAddress_error hx, attempt_error]

/-- Settles O38: the addition of 16-bit words is the sum modulo 65536 (rule R111). -/
theorem addToIndex : Obligations.AddToIndex := by
  intro x s hroom
  refine ⟨_, advance_ok (after := { s with i := s.i + byteWord (s.readV x) }) hroom, rfl,
    toNat_ofNat_of_le hroom, ?_, rfl, rfl⟩
  exact (BitVec.toNat_add ..).trans (by rw [byteWord_toNat])

/-! ### Timers and keys -/

theorem exec_ldVxDt (x : Reg) (s : State) : exec (.ldVxDt x) s = advance s (s.writeV x s.dt) := rfl

/-- Settles O49: each is one write of VX or of the timer, and no instruction raises the signal (rules R137, R139,
R140). -/
theorem timerAccess : Obligations.TimerAccess := by
  intro x s hroom
  refine ⟨?loadDt, ?storeDt, ?storeSt⟩
  case loadDt =>
    obtain ⟨t, ht, hpc, hframe, hx, hother⟩ := exec_next_of_writeV (exec_ldVxDt x s) hroom
    exact ⟨t, ht, hpc, hframe, hx, hother, (exec_tickFrame ht).quiet⟩
  case storeDt =>
    exact ⟨_, advance_ok (after := { s with dt := s.readV x }) hroom, toNat_ofNat_of_le hroom, rfl, rfl, rfl⟩
  case storeSt =>
    exact ⟨_, advance_ok (after := { s with st := s.readV x }) hroom, toNat_ofNat_of_le hroom, rfl, rfl, rfl⟩

theorem exec_ldVxKey_of_none {s : State} (x : Reg) (h : highestKey s.keys = none) :
    exec (.ldVxKey x) s = finish s s s.pc.toNat := by
  simp only [exec, execLdVxKey, h, State.npc, Nat.add_sub_cancel]

theorem exec_ldVxKey_of_some {s : State} {k : Nat} (x : Reg) (h : highestKey s.keys = some k) :
    exec (.ldVxKey x) s = advance s (s.writeV x (BitVec.ofNat 8 k)) := by
  simp only [exec, execLdVxKey, h]

/-- Settles O48: with no key down PC is put back where it was; else VX takes the highest key, which a byte holds,
and the tick ends as of any instruction that does not write PC (rule R138). -/
theorem waitForKey : Obligations.WaitForKey := by
  refine ⟨fun x s hpc hup => ?waits, fun x s k hdown habove => ?pressed⟩
  case waits =>
    have hnone : highestKey s.keys = none := highestKey_none.2 fun k hk => hup ⟨k, hk⟩
    refine ⟨_, (exec_ldVxKey_of_none x hnone).trans (finish_ok hpc), ?_⟩
    simp only [BitVec.ofNat_toNat, BitVec.setWidth_eq]
  case pressed =>
    have hsome : highestKey s.keys = some k.val :=
      highestKey_some.2 ⟨k.isLt, hdown, fun j hj hlt => habove ⟨j, hj⟩ hlt⟩
    have hexec := exec_ldVxKey_of_some x hsome
    refine ⟨fun hroom => ?_, fun hroom => hexec.trans (finish_bad hroom)⟩
    obtain ⟨t, ht, hpc, hframe, hx, hother⟩ := exec_next_of_writeV hexec hroom
    refine ⟨t, ht, hpc, ?_, hother, hframe⟩
    rw [hx, BitVec.toNat_ofNat]
    exact Nat.mod_eq_of_lt (by omega)

end Sys2Proof.Machine
end

section
/-! PROOFS. Moving bytes (`43_index_memory.md`), the fetch that sees them (`20_memory.md` rule R44), what is out of
range (`60_exceptions.md` rule R151), the program load and the placed word. -/

namespace Sys2Proof.Machine

/-! ### Out of range -/

theorem exec_store_out_of_range {i : Instr} {s : State} {a : Nat} {bytes : List Byte}
    (hi : exec i s = attempt s (s.memWrite a bytes) (advance s)) (hne : bytes.length ≠ 0)
    (h : 4096 < a + bytes.length) : exec i s = .next (s.latch .boundsViolation) := by
  rw [hi, State.memWrite_error hne h, attempt_error]

theorem bcdDigits_three {variant : BcdVariant} {b : Byte} (h : variant = .fixed3 ∨ 100 ≤ b.toNat) :
    bcdDigits variant b =
      [BitVec.ofNat 8 (b.toNat / 100), BitVec.ofNat 8 (b.toNat / 10 % 10), BitVec.ofNat 8 (b.toNat % 10)] := by
  cases variant with
  | fixed3 => exact bcdDigits_fixed3 b
  | variableLength => rw [bcdDigits_variable, if_pos (h.resolve_left nofun)]

theorem bcdDigits_two {b : Byte} (h : 10 ≤ b.toNat) (h' : b.toNat < 100) :
    bcdDigits .variableLength b = [BitVec.ofNat 8 (b.toNat / 10), BitVec.ofNat 8 (b.toNat % 10)] := by
  rw [bcdDigits_variable, if_neg (by omega), if_pos h]

theorem bcdDigits_one {b : Byte} (h : b.toNat < 10) : bcdDigits .variableLength b = [BitVec.ofNat 8 b.toNat] := by
  rw [bcdDigits_variable, if_neg (by omega), if_neg (by omega)]

/-- A value of two digits or more stores at least two bytes, in both variants. -/
theorem two_le_bcdDigits_length (variant : BcdVariant) {b : Byte} (h : 10 ≤ b.toNat) :
    2 ≤ (bcdDigits variant b).length := by
  by_cases h3 : variant = .fixed3 ∨ 100 ≤ b.toNat
  · rw [bcdDigits_three h3]; simp
  · cases variant with
    | fixed3 => exact absurd (.inl rfl) h3
    | variableLength =>
      have hlt : b.toNat < 100 := Nat.lt_of_not_le fun hle => h3 (.inr hle)
      exact (congrArg List.length (bcdDigits_two h hlt)).ge

/-- Settles O10: each checks its whole range, or its key number, before anything else (rule R151). -/
theorem indexOutOfRangeTraps : Obligations.IndexOutOfRangeTraps := by
  refine ⟨fun x y n s hn h => ?drw, fun x s h => ?bcd, fun x s h => ⟨?store, ?load⟩, fun x s h => ⟨?skp, ?sknp⟩⟩
  case drw => rw [exec, execDrw, State.memRead_error hn (by omega), attempt_error]
  case bcd =>
    obtain ⟨hone, -⟩ := bcdDigits_length s.cfg.bcd (s.readV x)
    refine exec_store_out_of_range (exec_ldBcd x s) (by omega) ?_
    rcases h with ⟨hthree, h⟩ | ⟨hten, h⟩ | h
    · rw [bcdDigits_three hthree]; exact Nat.succ_lt_succ h
    · have := two_le_bcdDigits_length s.cfg.bcd hten
      omega
    · omega
  case store =>
    have hlen := firstRegs_succ_length x s
    exact exec_store_out_of_range (exec_storeRegs x s) (by omega) (by omega)
  case load => rw [exec, execLoadRegs, State.memRead_error (by omega) (by omega), attempt_error]
  case skp => rw [exec, execSkp, keyIndex_error h, attempt_error]
  case sknp => rw [exec, execSknp, keyIndex_error h, attempt_error]

/-! ### Stores -/

/-- An instruction that only stores bytes, all of them in memory: they stand at a and up, every other byte, I and
the latch stand. -/
theorem exec_next_of_store {i : Instr} {s : State} {a : Nat} {bytes : List Byte}
    (hi : exec i s = attempt s (s.memWrite a bytes) (advance s)) (hroom : s.pc.toNat + 2 ≤ 4095)
    (hwf : Memory.wf s.cfg.font s.mem = true) (hfits : a + bytes.length ≤ 4096) :
    ∃ t, exec i s = .next t ∧ t.fault = s.fault ∧ t.pc.toNat = s.pc.toNat + 2 ∧ t.i = s.i ∧
      (∀ (k : Nat) (hk : k < bytes.length), t.peek (a + k) = bytes[k]) ∧
      ∀ c, (c < a ∨ a + bytes.length ≤ c) → t.peek c = s.peek c := by
  have hwrite : s.memWrite a bytes = .ok (State.pokeBytes a bytes s) := State.memWrite_ok (.inr hfits)
  have hexec : exec i s = advance s (State.pokeBytes a bytes s) := by rw [hi, hwrite, attempt_ok]
  refine ⟨_, hexec.trans (advance_ok hroom), State.pokeBytes_fault .., toNat_ofNat_of_le hroom,
    State.pokeBytes_i .., fun k hk => ?stored, fun c hc => (State.peek_of_memWrite hwf hwrite hc :)⟩
  case stored =>
    have hpeek := State.peek_pokeBytes hwf bytes a hfits (a + k)
    simp only [Nat.add_sub_cancel_left] at hpeek
    exact hpeek.trans (dif_pos ⟨Nat.le_add_right a k, Nat.add_lt_add_left hk a⟩)

theorem toNat_ofNat_byte {n : Nat} (h : n < 256) : (BitVec.ofNat 8 n).toNat = n := by
  rw [BitVec.toNat_ofNat]
  exact Nat.mod_eq_of_lt h

/-- Settles O39: each clause is the digits of its case, each below 10 and so held by a byte (rule R113). -/
theorem bcdStoresDigits : Obligations.BcdStoresDigits := by
  intro x s hroom hwf
  have hx := (s.readV x).isLt
  refine ⟨fun h hfits => ?three, fun hvar h h' hfits => ?two, fun hvar h hfits => ?one⟩
  case three =>
    have hexec := exec_ldBcd x s
    rw [bcdDigits_three h] at hexec
    obtain ⟨t, ht, hfault, hpc, -, hstored, hother⟩ := exec_next_of_store hexec hroom hwf (Nat.succ_le_succ hfits)
    exact ⟨t, ht, hfault, hpc, (congrArg _ (hstored 0 (by simp))).trans (toNat_ofNat_byte (by omega)),
      (congrArg _ (hstored 1 (by simp))).trans (toNat_ofNat_byte (by omega)),
      (congrArg _ (hstored 2 (by simp))).trans (toNat_ofNat_byte (by omega)), hother⟩
  case two =>
    have hexec := exec_ldBcd x s
    rw [hvar, bcdDigits_two h h'] at hexec
    obtain ⟨t, ht, hfault, hpc, -, hstored, hother⟩ := exec_next_of_store hexec hroom hwf (Nat.succ_le_succ hfits)
    exact ⟨t, ht, hfault, hpc, (congrArg _ (hstored 0 (by simp))).trans (toNat_ofNat_byte (by omega)),
      (congrArg _ (hstored 1 (by simp))).trans (toNat_ofNat_byte (by omega)), hother⟩
  case one =>
    have hexec := exec_ldBcd x s
    rw [hvar, bcdDigits_one h] at hexec
    obtain ⟨t, ht, hfault, hpc, -, hstored, hother⟩ := exec_next_of_store hexec hroom hwf (Nat.succ_le_succ hfits)
    exact ⟨t, ht, hfault, hpc, (congrArg _ (hstored 0 (by simp))).trans (toNat_ofNat_byte (by omega)),
      fun a ha => hother a (Nat.lt_or_gt_of_ne ha)⟩

/-- Byte r of the registers stored is Vr. -/
theorem getElem_firstRegs_toNat (s : State) (n : Nat) (r : Reg) (hr : r.toNat < (s.firstRegs n).length) :
    (s.firstRegs n)[r.toNat] = s.readV r := by
  rw [State.getElem_firstRegs s n r.toNat hr r.isLt, BitVec.ofNat_toNat, BitVec.setWidth_eq]

/-- Settles O40: the bytes stored are V0 to VX (rule R114). -/
theorem storeRegistersAtI : Obligations.StoreRegistersAtI := by
  intro x s hroom hwf hfits
  have hlen := firstRegs_succ_length x s
  obtain ⟨t, ht, hfault, hpc, hti, hstored, hother⟩ :=
    exec_next_of_store (exec_storeRegs x s) hroom hwf (by omega)
  refine ⟨t, ht, hfault, hpc, hti, fun r hr => ?_, fun a ha => hother a (by omega)⟩
  rw [hstored r.toNat (by omega), getElem_firstRegs_toNat]

/-- Settles O41: the bytes read are written to V0 and up (rule R115). -/
theorem loadRegistersFromI : Obligations.LoadRegistersFromI := by
  intro x s hroom hfits
  have hexec : exec (.loadRegs x) s =
      advance s (State.writeRegsFrom 0 (s.peekBytes s.i.toNat (x.toNat + 1)) s) := by
    rw [exec, execLoadRegs, State.memRead_ok (.inr (by omega)), attempt_ok]
  have hlen := State.peekBytes_length s s.i.toNat (x.toNat + 1)
  have hread := State.readV_writeRegsFrom (s.peekBytes s.i.toNat (x.toNat + 1)) 0 s
    (by have := x.isLt; omega)
  refine ⟨_, hexec.trans (advance_ok hroom), State.writeRegsFrom_fault .., toNat_ofNat_of_le hroom,
    State.writeRegsFrom_i .., fun r hr => ?loaded, fun r hr => (hread r).trans (dif_neg (by omega))⟩
  case loaded =>
    exact (hread r).trans ((dif_pos (by omega)).trans (State.getElem_peekBytes ..))

/-! ### The fetch after a store -/

/-- The fetch of the next tick sees the bytes stored, and those that stood where none was stored; the tick runs
the instruction its word decodes to (`20_memory.md` rule R44). -/
theorem fetch_after_store {i : Instr} {s : State} {a : Nat} {bytes : List Byte} {byte : Nat → Byte}
    (hi : exec i s = attempt s (s.memWrite a bytes) (advance s)) (hwf : Memory.wf s.cfg.font s.mem = true)
    (hpc : s.pc.toNat + 3 ≤ 4095) (hfits : a + bytes.length ≤ 4096)
    (hbyte : ∀ (k : Nat) (hk : k < bytes.length), bytes[k] = byte k) :
    ∃ t w, exec i s = .next t ∧ t.fault = s.fault ∧ fetch t = .ok w ∧
      (∀ stored : Nat → Byte, stored = s.afterStore a bytes.length byte →
        w = wordOfBytes (stored (s.pc.toNat + 2)) (stored (s.pc.toNat + 3))) ∧
      (∀ j, s.fault = none → decodeWord w = some j → tick t = exec j t) := by
  obtain ⟨t, ht, hfault, htpc, -, hstored, hother⟩ := exec_next_of_store hi (by omega) hwf hfits
  have hfetch : fetch t = .ok t.wordAtPc := fetch_ok (by omega)
  have hpeek (c : Nat) : t.peek c = s.afterStore a bytes.length byte c := by
    unfold State.afterStore
    split
    · next hc =>
      have hlt : c - a < bytes.length := by omega
      rw [← hbyte _ hlt, ← hstored _ hlt, Nat.add_sub_cancel' hc.1]
    · next hc => exact hother c (by omega)
  refine ⟨t, t.wordAtPc, ht, hfault, hfetch, fun stored hst => ?_, fun j hf hd => ?_⟩
  · rw [hst, State.wordAtPc, htpc, hpeek, hpeek]
  · exact tick_of_fetch (hfault.trans hf) hfetch hd

/-- Settles O42: both are stores, of V0 to VX and of the digits; the word at I is that of the first two bytes
stored (rules R113, R114). -/
theorem fetchSeesStores : Obligations.FetchSeesStores := by
  refine ⟨fun x s hwf hpc hfits => ?registers, fun x s hwf hpc hfits => ?digits⟩
  case registers =>
    have hlen := firstRegs_succ_length x s
    obtain ⟨t, w, ht, hfault, hfetch, hword, htick⟩ := fetch_after_store
      (byte := fun k => s.readV (BitVec.ofNat 4 k)) (exec_storeRegs x s) hwf hpc (by omega)
      (fun k hk => State.getElem_firstRegs s _ k hk (by have := x.isLt; omega))
    rw [hlen] at hword
    refine ⟨t, w, ht, hfault, hfetch, hword, fun hi hx => ?_, htick⟩
    rw [hword _ rfl, ← hi, show s.pc.toNat + 3 = s.i.toNat + 1 by omega, State.afterStore, State.afterStore,
      if_pos (by omega), if_pos (by omega), Nat.sub_self, Nat.add_sub_cancel_left]
  case digits =>
    refine fetch_after_store (exec_ldBcd x s) hwf hpc hfits fun k hk => ?_
    rw [List.getD_eq_getElem _ _ hk]

/-! ### The program load and the placed word -/

/-- Settles O52: the load is a checked store from 0x200 up (`70_reset_and_hazards.md` rule R182). -/
theorem loadCopiesImage : Obligations.LoadCopiesImage := by
  intro s bytes hf hwf
  have hperform : perform (.load bytes) s = load bytes s := unlessFaulted_none hf _
  refine ⟨fun hlen => ?fits, fun hlen => ?tooLong⟩
  case fits =>
    have hfits : 0x200 + bytes.length ≤ 4096 := by omega
    have hwrite : s.memWrite 0x200 bytes = .ok (State.pokeBytes 0x200 bytes s) := State.memWrite_ok (.inr hfits)
    have hload : load bytes s = .next { State.pokeBytes 0x200 bytes s with toneEvent := false } := by
      rw [load, hwrite, attempt_ok]
    refine ⟨_, hperform.trans hload, fun k hk => ?copied,
      fun a ha => (State.peek_of_memWrite hwf hwrite ha :), by rw [State.pokeBytes_eq]⟩
    case copied =>
      have hpeek := State.peek_pokeBytes hwf bytes 0x200 hfits (0x200 + k)
      simp only [Nat.add_sub_cancel_left] at hpeek
      exact hpeek.trans (dif_pos ⟨Nat.le_add_right _ k, Nat.add_lt_add_left hk _⟩)
  case tooLong =>
    rw [hperform, load, State.memWrite_error (by omega) (by omega), attempt_error]

theorem decodeWord_of_decodeTableWord {nbits w : Nat} {i : Instr} (h : decodeTableWord nbits w = some i) :
    decodeWord (tableWord nbits w) = some i := by
  rw [decodeTableWord, decode, wordOfBytes_highByte_lowByte] at h
  cases hd : decodeWord (tableWord nbits w) with
  | none => rw [hd] at h; cases h
  | some j => rw [hd] at h; exact h

theorem wordAtPc_pokeBytes {s : State} (hwf : Memory.wf s.cfg.font s.mem = true) (hpc : s.pc.toNat ≤ 4094)
    (w : Word) : (State.pokeBytes s.pc.toNat [highByte w, lowByte w] s).wordAtPc = w := by
  have hfits : s.pc.toNat + [highByte w, lowByte w].length ≤ 4096 := by
    simpa using hpc
  rw [State.wordAtPc, State.pokeBytes_pc, State.peek_pokeBytes hwf _ _ hfits, State.peek_pokeBytes hwf _ _ hfits,
    dif_pos (by simp), dif_pos (by simp)]
  simp

/-- The machine with a word placed fetches that word next (log entry 10). -/
theorem nextInstr_placeWord {s : State} {w : Word} {i : Instr} (hwf : Memory.wf s.cfg.font s.mem = true)
    (hd : decodeWord w = some i) : (placeWord s w).nextInstr = some i := by
  unfold placeWord
  generalize ha : (if s.pc.toNat ≤ 4094 then s.pc.toNat else 0x200) = a
  have hle : a ≤ 4094 := by rw [← ha]; split <;> omega
  have hpc : (BitVec.ofNat 16 a).toNat = a := toNat_ofNat_of_le (by omega)
  have hword := wordAtPc_pokeBytes
    (s := { s with pc := BitVec.ofNat 16 a, pending := [], tail := .ticking, fault := none }) hwf (hpc.trans_le hle) w
  simp only [hpc] at hword
  refine nextInstr_of_decodeWord ?_ (by rw [hword]; exact hd)
  rw [State.pokeBytes_pc]
  exact hpc.trans_le hle

/-- Settles O55: no command waits, the host ticks, no fault is latched, and the tick fetches the word placed. -/
theorem placedWordRunsNext : Obligations.PlacedWordRunsNext := by
  intro s w i hwf hw
  have hnext : (s.withFetchWord 16 w).nextInstr = some i :=
    nextInstr_placeWord hwf (decodeWord_of_decodeTableWord hw)
  refine (step_of_ticking ?_ ?_).trans (tick_of_nextInstr ?_ hnext)
  · exact State.pokeBytes_pending ..
  · exact State.pokeBytes_tail ..
  · exact State.pokeBytes_fault ..

end Sys2Proof.Machine
end

section
/-! PROOFS. Drawing (`44_display.md` rules R126, R127): which cells a sprite changes, how, and the collision. -/

namespace Sys2Proof.Machine

/-! ### One sprite -/

/-- What `DRW Vx,Vy,N` draws: the new display and the collision result. -/
def State.sprite (s : State) (x y : Reg) (n : Nibble) : Display × Bool :=
  drawSprite s.cfg.draw (s.readV x).toNat (s.readV y).toNat (s.peekBytes s.i.toNat n.toNat) s.display

/-- The cell of pixel (r, c) of the sprite that `DRW Vx,Vy,N` draws. -/
def State.pixelCell (s : State) (x y : Reg) (r c : Nat) : Nat :=
  cellIndex (s.readV x).toNat (s.readV y).toNat r c

/-- Its sprite bit. -/
def State.pixelBit (s : State) (r c : Nat) : Bool := spriteBit (s.peek (s.i.toNat + r)) c

section

variable (s : State) (x y : Reg) (n : Nibble)

theorem State.sprite_spec :
    (∀ idx, (∀ r c, r < n.toNat → c < 8 → s.pixelCell x y r c ≠ idx) →
      (s.sprite x y n).1.cell idx = s.display.cell idx) ∧
    (∀ r c, r < n.toNat → c < 8 → (s.sprite x y n).1.cell (s.pixelCell x y r c) =
      pixelAfter s.cfg.draw (s.display.cell (s.pixelCell x y r c)) (s.pixelBit r c)) ∧
    ((s.sprite x y n).2 = true ↔ ∃ r c, r < n.toNat ∧ c < 8 ∧
      pixelHits s.cfg.draw (s.display.cell (s.pixelCell x y r c)) (s.pixelBit r c) = true) := by
  have hlen := State.peekBytes_length s s.i.toNat n.toNat
  obtain ⟨hother, hpixel, hhit⟩ := drawRowsFrom_spec s.cfg.draw (s.readV x).toNat (s.readV y).toNat
    (s.peekBytes s.i.toNat n.toNat) 0 (by have := n.isLt; omega) (s.display, false)
  simp only [hlen, Nat.zero_add, State.getElem_peekBytes, Bool.false_eq_true, false_or,
    exists_prop] at hother hpixel hhit
  exact ⟨hother, hpixel, hhit⟩

/-- What `DRW Vx,Vy,N` commits when its sprite rows are in memory and there is room to advance. -/
def State.afterDraw : State :=
  { State.writeV { s with display := (s.sprite x y n).1 } VF (flagByte (s.sprite x y n).2) with
    pc := BitVec.ofNat 16 (s.pc.toNat + 2), toneEvent := false }

theorem exec_drw_of_fits {s : State} (hroom : s.pc.toNat + 2 ≤ 4095)
    (hfits : n.toNat = 0 ∨ s.i.toNat + n.toNat - 1 ≤ 4095) : exec (.drw x y n) s = .next (s.afterDraw x y n) := by
  rw [exec, execDrw, State.memRead_ok (by omega), attempt_ok]
  exact advance_ok hroom

theorem State.afterDraw_readV_VF : (s.afterDraw x y n).readV VF = flagByte (s.sprite x y n).2 :=
  State.readV_writeV_self _ VF _

theorem State.afterDraw_readV_of_ne (r : Reg) (hr : r ≠ VF) : (s.afterDraw x y n).readV r = s.readV r :=
  (State.readV_writeV _ VF r _).trans (if_neg hr)

theorem flagByte_eq_one_iff (c : Bool) : flagByte c = 1#8 ↔ c = true := by cases c <;> decide

/-- The second of two equal draws is at the same place when neither coordinate is VF. -/
theorem State.afterDraw_pixelCell (hx : x ≠ VF) (hy : y ≠ VF) (r c : Nat) :
    (s.afterDraw x y n).pixelCell x y r c = s.pixelCell x y r c := by
  simp only [State.pixelCell, State.afterDraw_readV_of_ne s x y n _ hx, State.afterDraw_readV_of_ne s x y n _ hy]

/-- A draw writes no memory and not I, so the sprite is the same. -/
theorem State.afterDraw_pixelBit (r c : Nat) : (s.afterDraw x y n).pixelBit r c = s.pixelBit r c := rfl

end

/-! ### The two variants, and drawing twice -/

/-- Settles O44: of `xor_collision` a pixel toggles its cell, and it is a collision when its bit and its cell are
both 1; the flag is written to VF last (D4, D20, D21). -/
theorem drawTogglesAndReportsCollision : Obligations.DrawTogglesAndReportsCollision := by
  intro x y n s hdraw hroom hfits
  obtain ⟨hother, hpixel, hhit⟩ := s.sprite_spec x y n
  rw [hdraw] at hpixel hhit
  refine ⟨_, exec_drw_of_fits x y n hroom hfits, rfl, toNat_ofNat_of_le hroom, hpixel, hother, ?collision, ?flag,
    s.afterDraw_readV_of_ne x y n⟩
  case collision =>
    rw [State.afterDraw_readV_VF, flagByte_eq_one_iff, hhit]
    simp only [pixelHits, Bool.and_eq_true]
    rfl
  case flag => rw [State.afterDraw_readV_VF]; exact flagByte_cases _

/-- Settles O45: of `source_overwrite` a pixel's cell takes its bit, and no pixel is a collision. -/
theorem drawOverwrites : Obligations.DrawOverwrites := by
  intro x y n s hdraw hroom hfits
  obtain ⟨hother, hpixel, hhit⟩ := s.sprite_spec x y n
  rw [hdraw] at hpixel hhit
  refine ⟨_, exec_drw_of_fits x y n hroom hfits, rfl, toNat_ofNat_of_le hroom, hpixel, hother, ?flag,
    s.afterDraw_readV_of_ne x y n⟩
  case flag =>
    have hnone : (s.sprite x y n).2 = false := by
      rw [← Bool.not_eq_true, hhit]
      simp [pixelHits]
    rw [State.afterDraw_readV_VF, hnone]
    rfl

/-- Settles O46: a cell of the sprite is toggled twice, and where the bit is 1 the second draw finds it set exactly
when it was clear at first (D4, D20). -/
theorem drawTwiceRestoresDisplay : Obligations.DrawTwiceRestoresDisplay := by
  intro x y n s hdraw hx hy hroom hfits
  have hpc : (s.afterDraw x y n).pc.toNat = s.pc.toNat + 2 := toNat_ofNat_of_le (by omega)
  obtain ⟨hother, hpixel, -⟩ := s.sprite_spec x y n
  obtain ⟨hother', hpixel', hhit'⟩ := (s.afterDraw x y n).sprite_spec x y n
  simp only [State.afterDraw_pixelCell s x y n hx hy, State.afterDraw_pixelBit] at hother' hpixel' hhit'
  rw [show (s.afterDraw x y n).cfg.draw = .xorCollision from hdraw] at hpixel' hhit'
  rw [hdraw] at hpixel
  have hcell : ∀ r c, r < n.toNat → c < 8 → (s.afterDraw x y n).display.cell (s.pixelCell x y r c) =
      (s.display.cell (s.pixelCell x y r c) != s.pixelBit r c) := hpixel
  refine ⟨_, _, exec_drw_of_fits x y n (by omega) hfits, exec_drw_of_fits x y n (by omega) hfits, rfl,
    Display.ext_of_cell fun idx _ => ?restored, ?collision⟩
  case restored =>
    by_cases hidx : ∃ r c, r < n.toNat ∧ c < 8 ∧ s.pixelCell x y r c = idx
    · obtain ⟨r, c, hr, hc, rfl⟩ := hidx
      refine (hpixel' r c hr hc).trans ?_
      rw [hcell r c hr hc, pixelAfter, Bool.bne_assoc, bne_self_eq_false, Bool.bne_false]
    · have hne : ∀ r c, r < n.toNat → c < 8 → s.pixelCell x y r c ≠ idx :=
        fun r c hr hc e => hidx ⟨r, c, hr, hc, e⟩
      exact (hother' idx hne).trans (hother idx hne)
  case collision =>
    rw [State.afterDraw_readV_VF, flagByte_eq_one_iff, hhit']
    refine exists_congr fun r => exists_congr fun c => and_congr_right fun hr => and_congr_right fun hc => ?_
    rw [pixelHits, hcell r c hr hc, Bool.and_eq_true]
    refine and_congr_right fun hbit => ?_
    rw [hbit, Bool.bne_true, Bool.not_eq_true']
    rfl

end Sys2Proof.Machine
end

section
/-! PROOFS. The host's timers and keys (`60_exceptions.md` rules R161 to R164), the parked machine
(`70_reset_and_hazards.md` rule R186), and the schedule (`00_scope.md` rules R3, R4, R6). -/

namespace Sys2Proof.Machine

/-! ### Timers and keys -/

/-- Settles O50: the countdown judges the signal on the old ST, and every other command leaves the signal 0
(rules R161 to R163). -/
theorem timersCountDown : Obligations.TimersCountDown := by
  refine ⟨fun s hf => ?counts, fun s t c hc h => ?quiet⟩
  case counts =>
    exact ⟨_, unlessFaulted_none hf tickTimers, countDown_toNat _, countDown_toNat _, beq_iff_eq, rfl⟩
  case quiet =>
    cases performs_of_perform h with
    | tick b u hu => exact ((tick_tickFrame hu).quiet :)
    | tickTimers => exact absurd rfl hc
    | ignored | keypress | loaded | loadTraps | reset | none => rfl

/-- Settles O51: `keypress` writes one flag of an unfaulted machine; a tick keeps them, and no other command but
RESET touches them (rule R164, D19). -/
theorem keypressSetsOneFlag : Obligations.KeypressSetsOneFlag := by
  refine ⟨fun s k p => ⟨fun hf => ?sets, fun hf => ?ignored⟩, fun s t c hkey hreset h => ?others⟩
  case sets =>
    refine ⟨_, unlessFaulted_none hf (keypress k p), fun j hj => ?_, rfl⟩
    exact (Vector.getElem_set k.isLt hj).trans (if_congr eq_comm rfl rfl)
  case ignored =>
    obtain ⟨f, hf⟩ := Option.ne_none_iff_exists'.1 hf
    exact ⟨_, unlessFaulted_some hf _, rfl⟩
  case others =>
    cases performs_of_perform h with
    | tick b u hu => exact ((tick_tickFrame hu).keys :)
    | keypress k p => exact absurd rfl (hkey k p)
    | reset => exact absurd rfl hreset
    | loaded bytes => exact State.pokeBytes_keys ..
    | ignored | tickTimers | loadTraps | none => rfl

/-! ### The parked machine -/

/-- A parked machine fetches a jump to where PC is. -/
theorem fetch_of_parked {s : State} (h : s.parked = true) :
    ∃ w nnn, fetch s = .ok w ∧ decodeWord w = some (.jp nnn) ∧ addrWord nnn = s.pc := by
  unfold State.parked at h
  split at h
  · cases h
  · next w hw =>
    split at h
    · next nnn hd => exact ⟨w, nnn, hw, hd, eq_of_beq h⟩
    · cases h

/-- Settles O53: the tick is the jump, whose target is the PC the state has (rule R186). -/
theorem parkedIsFixedPoint : Obligations.ParkedIsFixedPoint := by
  intro s hparked hf
  obtain ⟨w, nnn, hfetch, hd, htarget⟩ := fetch_of_parked hparked
  have htick : tick s = .next { s with toneEvent := false } := by
    rw [tick_of_fetch hf hfetch hd, exec_jp, finish_ok (addrWord_le nnn), htarget, BitVec.ofNat_toNat,
      BitVec.setWidth_eq]
  exact ⟨_, htick, rfl, hparked, fun hp ht => (step_of_ticking hp ht).trans htick⟩

/-! ### The schedule -/

theorem runSchedule_cons {c : Command} {cs : List Command} {s t : State} (h : perform c s = .next t) :
    runSchedule (c :: cs) s = runSchedule cs t := by rw [runSchedule, h]

/-- One step that performs c, then the rest of a run: the same as performing c under any other schedule and then
the rest, if that is so of the rest from the state in between. -/
theorem run_eq_runSchedule_cons {c : Command} {cs cs' : List Command} {k n m : Nat} {tail tail' : HostTail}
    {s s₀ : State} (hstep : step s₀ = perform c (s.withSchedule cs tail n))
    (hrest : ∀ u : State, Sys2Proof.core.run k (u.withSchedule cs tail n) =
      runSchedule cs' (u.withSchedule [] tail' m)) :
    Sys2Proof.core.run (k + 1) s₀ = runSchedule (c :: cs') (s.withSchedule [] tail' m) := by
  obtain ⟨t, ht⟩ := perform_total c (s.withSchedule cs tail n)
  have hkeep : t.withSchedule cs tail n = t := perform_keeps_schedule ht
  rw [core_run_succ k (hstep.trans ht), ← hkeep, hrest t]
  exact (runSchedule_cons (perform_withSchedule [] tail' m ht)).symm

theorem run_withSchedule (cs : List Command) (tail : HostTail) (n : Nat) (s : State) :
    Sys2Proof.core.run cs.length (s.withSchedule cs tail n) = runSchedule cs (s.withSchedule [] tail n) := by
  induction cs generalizing s with
  | nil => rfl
  | cons c cs ih => exact run_eq_runSchedule_cons (step_of_command rfl) ih

theorem run_free (k n : Nat) (s : State) :
    Sys2Proof.core.run k (s.withSchedule [] .free n) =
      runSchedule ((List.range k).map fun j => Config.freeCommand (n + j)) (s.withSchedule [] .free (n + k)) := by
  induction k generalizing n s with
  | zero => rfl
  | succ k ih =>
    have hcommands : ((List.range (k + 1)).map fun j => Config.freeCommand (n + j)) =
        Config.freeCommand n :: (List.range k).map fun j => Config.freeCommand (n + 1 + j) := by
      rw [List.range_succ_eq_map, List.map_cons, List.map_map]
      exact congrArg _ (List.map_congr_left fun j _ => congrArg _ (show n + (j + 1) = n + 1 + j by omega))
    rw [hcommands, show n + (k + 1) = n + 1 + k by omega]
    exact run_eq_runSchedule_cons (step_of_free rfl rfl) (ih (n + 1))

theorem run_ended (k n : Nat) (s : State) : Sys2Proof.core.run (k + 1) (s.withSchedule [] .ended n) =
    .next { s.withSchedule [] .ended n with toneEvent := false } := by
  have hstep (u : State) : step (u.withSchedule [] .ended n) =
      .next (State.withSchedule { u with toneEvent := false } [] .ended n) := step_of_ended rfl rfl
  induction k generalizing s with
  | zero => exact core_run_succ 0 (hstep s)
  | succ k ih => exact (core_run_succ (k + 1) (hstep s)).trans (ih { s with toneEvent := false })

/-- Settles O54: a step performs the next command, which neither reads nor writes the schedule (rules R3, R4). -/
theorem scheduleServedInOrder : Obligations.ScheduleServedInOrder :=
  ⟨run_withSchedule, run_free, fun _ _ => step_of_ticking rfl rfl, run_ended⟩

end Sys2Proof.Machine
end
